-- ==== Sys2Proof/Word.lean ====
section
/-! DEFINITION. The widths of the hardware (00_scope.md R7, R9, R10) as types: a byte, a letter index, a catalogue
selector, a slot number, a command packet, a 26-entry table. -/
namespace Sys2Proof

/-- A `Char` of the spec: an 8-bit byte read as an ASCII code (R10). Also one byte of a packet (R9). -/
abbrev Byte := BitVec 8

/-- A letter index, an integer in [0, 25] held in 5 bits (R10). The 5-bit codes 26 to 31 do not exist in this type, as
93_implementation_defined.md U12 asks (log 5). -/
abbrev Idx := Fin 26

/-- A letter. "A `Letter` and its `Idx` are the same hardware value" (R10). -/
abbrev Letter := Idx

/-- A catalogue selector, 0, 1 or 2, held in 2 bits; the code 3 does not exist in this type (R21, U12, log 5). -/
abbrev Sel := Fin 3

/-- A rotor slot: 0 left, 1 middle, 2 right (R18, R25). -/
abbrev Slot := Fin 3

/-- A command packet `cmd[303:0]` (R60, R61). -/
abbrev Packet := BitVec 304

/-- A table of 26 letters, indexed by a letter (R40). -/
abbrev Table := Vector Letter 26

end Sys2Proof
end

