-- ==== Sys2Proof/Config.lean ====
section
/-! DEFINITION. The parameters of the machine (00_scope.md R7, R8) as one record, and the free values: what SEL, RING, POS
and PLUG hold while the spec calls them unspecified (10_state.md R36, R37). The default parameter values are in
Machine/Tables.lean. -/
namespace Sys2Proof

/-- The stepping rule variant `STEP_RULE` (R7): `numbered` is the value this hardware takes (44_stepper_fsm.md R114),
`historical` the alternative of R117. -/
inductive StepRule where
  | numbered
  | historical
deriving DecidableEq, Repr

/-- One catalogue entry (R34, R40): `CAT_WIRING[k]`, its inverse `CAT_WIRING_INV[k]`, and `CAT_NOTCH[k]`. The inverse is
stored as a second constant table, one of the two forms 92_eei_decisions.md D35 allows (log 16). -/
structure CatEntry where
  wiring    : Table
  wiringInv : Table
  notch     : Letter
deriving DecidableEq, Repr

/-- Everything the spec's model takes as configuration and some rule reads (R7): the catalogue, the reflector table and
the stepping rule. `LATENCY` and `N_INSTANCES` are read by no rule of one engine (log 9, log 10). -/
structure Params where
  cat      : Vector CatEntry 3
  refl     : Table
  stepRule : StepRule
deriving DecidableEq, Repr

/-- Free value: `SEL` at the n-th moment the spec leaves it unspecified (R36, R37; log 4). -/
opaque Config.freeSel : Nat → Vector Sel 3

/-- Free value: `RING` at the n-th moment the spec leaves it unspecified (R36, R37; log 4). -/
opaque Config.freeRing : Nat → Vector Idx 3

/-- Free value: `POS` at the n-th moment the spec leaves it unspecified (R36, R37; log 4). -/
opaque Config.freePos : Nat → Vector Idx 3

/-- Free value: `PLUG` at the n-th moment the spec leaves it unspecified (R36, R37; log 4). -/
opaque Config.freePlug : Nat → Table

end Sys2Proof
end

