-- ==== Sys2Proof/Syntax.lean ====
section
/-! DEFINITION. The four commands of RSE-CMD-1 (30_encoding.md R62 to R64), one constructor per row of the opcode table,
and the response with its eight statuses (R70, 60_exceptions.md R141). -/
namespace Sys2Proof

/-- The configuration record `CFG` of a `LOAD` (R62), each field the raw byte of the packet: how a byte is read (unsigned,
signed, as a character) is operand decoding (R65 to R68), and a bad value is a validation error, not a decode error (R73). -/
structure Cfg where
  /-- `SEL0`, `SEL1`, `SEL2`. -/
  sel    : Vector Byte 3
  /-- `POS0`, `POS1`, `POS2`. -/
  pos    : Vector Byte 3
  /-- `RING0`, `RING1`, `RING2`. -/
  ring   : Vector Byte 3
  /-- `NPAIRS`. -/
  npairs : Byte
  /-- `(PA[k], PB[k])` for k = 0 to 12. -/
  pairs  : Vector (Byte × Byte) 13
deriving DecidableEq, Repr

/-- A command (R64). -/
inductive Instr where
  /-- `NOP`, opcode 0x00, format N. -/
  | nop
  /-- `LOAD`, opcode 0x01, format L: construction. -/
  | load (cfg : Cfg)
  /-- `ENC`, opcode 0x02, format C: `encryptChar`. -/
  | enc (ch : Byte)
  /-- `PROC`, opcode 0x03, format C: one character of `process`. -/
  | proc (ch : Byte)
deriving DecidableEq, Repr

/-- The response statuses (R70, R141): exactly these eight (93_implementation_defined.md U10). -/
inductive Status where
  | ok
  | illegalOp
  | notConfigured
  | selRange
  | plugCount
  | plugNonletter
  | plugSelf
  | plugReuse
deriving DecidableEq, Repr

/-- A response: `RCHAR` and `STATUS` (R70). -/
structure Response where
  char   : Byte
  status : Status
deriving DecidableEq, Repr

end Sys2Proof
end

