-- ==== Sys2Proof/WellFormed.lean ====
section
/-! DEFINITION. Well-formed commands (the canonical encoding of 30_encoding.md R72) and well-formed parameters
(00_scope.md R8), each a Bool. -/
namespace Sys2Proof

/-- `LOAD` ignores the pair slot k when the pair count is legal and k is not below it (R72). -/
def Cfg.ignoresPair (npairs : Byte) (k : Nat) : Bool :=
  npairs.toNat ≤ 13 && npairs.toNat ≤ k

/-- Every ignored pair slot holds the canonical zero bytes (R72). -/
def Cfg.wellFormed (c : Cfg) : Bool :=
  decide (∀ k : Fin 13, Cfg.ignoresPair c.npairs k = true → c.pairs[k] = (0, 0))

/-- A command is well formed when the bytes it ignores are the canonical zeros; only `LOAD` carries such bytes (R72).
Every field value the command does use is allowed (R65 to R69, R73). -/
def Instr.wellFormed : Instr → Bool
  | .nop => true
  | .load cfg => cfg.wellFormed
  | .enc _ => true
  | .proc _ => true

/-- A wiring is a permutation and `wiringInv` is its inverse (R8, 10_state.md R31). Its length and that the notch is a
letter are in the types. -/
def CatEntry.wellFormed (e : CatEntry) : Bool :=
  decide (∀ j : Idx, e.wiringInv[e.wiring[j]] = j ∧ e.wiring[e.wiringInv[j]] = j)

/-- `REFL` is an involution without a fixed point, and so a permutation (R8, 43_reflector.md R109). -/
def reflWellFormed (t : Table) : Bool :=
  decide (∀ j : Idx, t[t[j]] = j ∧ t[j] ≠ j)

/-- A well-formed configuration of the model (R8). -/
def Params.wellFormed (p : Params) : Bool :=
  decide (∀ k : Sel, p.cat[k].wellFormed = true) && reflWellFormed p.refl

end Sys2Proof
end

