-- ==== Sys2Proof/Decode.lean ====
section
/-! DEFINITION. The decoder of command packets, total on all 2^304 packets (30_encoding.md R62, R64, R71, R72), the
encoder that gives the canonical packet, and the response packet with its status codes (R70). -/
namespace Sys2Proof

/-- Byte k of a packet, `p[8k+7:8k]` (00_scope.md R9). -/
def byteAt (p : Packet) (k : Nat) : Byte := p.extractLsb' (8 * k) 8

/-- The packet with the given bytes, byte 0 first; bytes not given are zero (R9). -/
def packetOfBytes : List Byte → Packet
  | [] => 0
  | b :: bs => (packetOfBytes bs <<< 8) ||| b.setWidth 304

/-- Why a packet is no command. -/
inductive DecodeError where
  /-- The opcode is one of 0x04 to 0xFF (R71). -/
  | illegalOp (op : Byte)
deriving DecidableEq, Repr

/-- The configuration record of a `LOAD` packet (R62). The bytes of an ignored pair slot are dropped: they are read as
the canonical zeros (R72; log 12). -/
def decodeCfg (p : Packet) : Cfg where
  sel    := Vector.ofFn fun i => byteAt p (2 + i)
  pos    := Vector.ofFn fun i => byteAt p (5 + i)
  ring   := Vector.ofFn fun i => byteAt p (8 + i)
  npairs := byteAt p 11
  pairs  := Vector.ofFn fun k =>
    if Cfg.ignoresPair (byteAt p 11) k then (0, 0) else (byteAt p (12 + 2 * k), byteAt p (13 + 2 * k))

/-- The command a packet stands for, by its opcode byte (R64), or the rejection of an illegal opcode (R71). -/
def decode (p : Packet) : Except DecodeError Instr :=
  match (byteAt p 0).toNat with
  | 0 => .ok .nop
  | 1 => .ok (.load (decodeCfg p))
  | 2 => .ok (.enc (byteAt p 1))
  | 3 => .ok (.proc (byteAt p 1))
  | _ => .error (.illegalOp (byteAt p 0))

/-- The opcode byte of a command (R64). -/
def opcode : Instr → Byte
  | .nop => 0x00
  | .load _ => 0x01
  | .enc _ => 0x02
  | .proc _ => 0x03

/-- The bytes of a configuration record from byte 2 of the packet on (R62). -/
def encodeCfg (c : Cfg) : List Byte :=
  c.sel.toList ++ c.pos.toList ++ c.ring.toList ++ [c.npairs] ++ c.pairs.toList.flatMap (fun q => [q.1, q.2])

/-- The leading bytes of the canonical packet; the bytes after them are zero (R62, R72). -/
def encodeBytes (i : Instr) : List Byte :=
  match i with
  | .nop => [opcode i]
  | .load cfg => [opcode i, 0x00] ++ encodeCfg cfg
  | .enc ch => [opcode i, ch]
  | .proc ch => [opcode i, ch]

/-- The canonical packet of a command (R72). -/
def encode (i : Instr) : Packet := packetOfBytes (encodeBytes i)

/-- The packet whose low bits are the table word w of nbits bits; the bits above are zero. -/
def packetOfTableWord (nbits w : Nat) : Packet := (BitVec.ofNat nbits w).setWidth 304

/-- The command the decoder reads from a table word: bit 0 of the word is bit 0 of byte 0 (R9). -/
def decodeTableWord (nbits w : Nat) : Option Instr :=
  match decode (packetOfTableWord nbits w) with
  | .ok i => some i
  | .error _ => none

/-- The `STATUS` byte of a status (R70). -/
def Status.code : Status → Byte
  | .ok => 0x00
  | .illegalOp => 0x01
  | .notConfigured => 0x02
  | .selRange => 0x10
  | .plugCount => 0x11
  | .plugNonletter => 0x12
  | .plugSelf => 0x13
  | .plugReuse => 0x14

/-- The response packet `rsp[15:0]`: `RCHAR` in bits 7..0, `STATUS` in bits 15..8 (R70). -/
def Response.packet (r : Response) : BitVec 16 := r.status.code ++ r.char

end Sys2Proof
end

