-- ==== Sys2Proof/Machine/Tables.lean ====
section
/-! DEFINITION. The default parameter values of 00_scope.md R7: the catalogue, the reflector and the stepping rule. Entry j of
a table is the letter at place j of its string, from the left (20_memory.md R42). -/
namespace Sys2Proof.Machine

/-- Catalogue entry 0: wiring `EKMFLGDQVZNTOWYHXUSPAIBRCJ`, inverse `UWYGADFPVZBECKMTHXSLRINQOJ` (41_rotor.md R95), notch Q. -/
def catEntry0 : CatEntry where
  wiring    := #v[4, 10, 12, 5, 11, 6, 3, 16, 21, 25, 13, 19, 14, 22, 24, 7, 23, 20, 18, 15, 0, 8, 1, 17, 2, 9]
  wiringInv := #v[20, 22, 24, 6, 0, 3, 5, 15, 21, 25, 1, 4, 2, 10, 12, 19, 7, 23, 18, 11, 17, 8, 13, 16, 14, 9]
  notch     := 16

/-- Catalogue entry 1: wiring `AJDKSIRUXBLHWTMCQGZNPYFVOE`, inverse `AJPCZWRLFBDKOTYUQGENHXMIVS` (R98), notch E. -/
def catEntry1 : CatEntry where
  wiring    := #v[0, 9, 3, 10, 18, 8, 17, 20, 23, 1, 11, 7, 22, 19, 12, 2, 16, 6, 25, 13, 15, 24, 5, 21, 14, 4]
  wiringInv := #v[0, 9, 15, 2, 25, 22, 17, 11, 5, 1, 3, 10, 14, 19, 24, 20, 16, 6, 4, 13, 7, 23, 12, 8, 21, 18]
  notch     := 4

/-- Catalogue entry 2: wiring `BDFHJLCPRTXVZNYEIWGAKMUSQO`, inverse `TAGBPCSDQEUFVNZHYIXJWLRKOM` (R98), notch V. -/
def catEntry2 : CatEntry where
  wiring    := #v[1, 3, 5, 7, 9, 11, 2, 15, 17, 19, 23, 21, 25, 13, 24, 4, 8, 22, 6, 0, 10, 12, 20, 18, 16, 14]
  wiringInv := #v[19, 0, 6, 1, 15, 2, 18, 3, 16, 4, 20, 5, 21, 13, 25, 7, 24, 8, 23, 9, 22, 11, 17, 10, 14, 12]
  notch     := 21

/-- The reflector table `YRUHQSLDPXNGOKMIEBFZCWVJAT` (43_reflector.md R107). -/
def reflTable : Table :=
  #v[24, 17, 20, 7, 16, 18, 11, 3, 15, 23, 13, 6, 14, 10, 12, 8, 4, 1, 5, 25, 2, 22, 21, 9, 0, 19]

/-- The default parameters (R7; log 1, log 2). -/
def defaultParams : Params where
  cat      := #v[catEntry0, catEntry1, catEntry2]
  refl     := reflTable
  stepRule := .numbered

end Sys2Proof.Machine
end

