-- ==== Sys2Proof/Machine/State.lean ====
section
/-! DEFINITION. The state of one engine (10_state.md R20, R36), the channels to the host (30_encoding.md R60), what the host
does next, the state after reset, and the reasons a step can stop. -/
namespace Sys2Proof.Machine

/-- One action of the host at the pins of the engine (00_scope.md R16, 30_encoding.md R60, 70_reset_and_hazards.md R160). -/
inductive HostAction where
  /-- Hold `cmd_valid` with this packet until the engine accepts it. -/
  | issue (p : Packet)
  /-- Hold `rsp_ready` until there is a response, and take it. -/
  | take
  /-- Raise `rst` for this step. -/
  | rst
  /-- Do nothing for this step. -/
  | pause
deriving DecidableEq, Repr

/-- The two channels. At most one command is outstanding (R60), so they are never both occupied (log 7). -/
inductive Channel where
  /-- Both channels are empty; `cmd_ready` is 1. -/
  | idle
  /-- A command has been accepted and not yet answered. -/
  | inFlight (p : Packet)
  /-- A response stands on the response channel and has not been taken. -/
  | answered (r : Response)
deriving DecidableEq, Repr

/-- The state of one engine (R20), with what stands outside the registers: the channels (R60), the parameters (R13, never
written), and three fields of the model's own: the host's next actions, the responses it has taken (log 6) and the
counter of the free values (log 4). -/
structure State where
  /-- `SEL[0..2]` (R21). -/
  sel        : Vector Sel 3
  /-- `RING[0..2]` (R22). -/
  ring       : Vector Idx 3
  /-- `POS[0..2]` (R23). -/
  pos        : Vector Idx 3
  /-- `PLUG[0..25]` (R32). -/
  plug       : Table
  /-- `CONFIGURED` (R30). -/
  configured : Bool
  /-- The command and the response channel (R60). -/
  chan       : Channel
  /-- The parameters of the machine (00_scope.md R7, R13): constant. -/
  par        : Params
  /-- What the host does next, oldest first. The model's own. -/
  host       : List HostAction
  /-- The responses the host has taken, oldest first. The model's own. -/
  received   : List Response
  /-- How often the registers have become unspecified so far. The model's own. -/
  free       : Nat
deriving DecidableEq, Repr

/-- No step faults, so there is no reason: errors are statuses of a response and the engine goes on
(60_exceptions.md R140; log 8). -/
inductive Fault where
deriving DecidableEq, Repr

/-- A refusal of the model. -/
inductive Refusal where
  /-- Raised by an arm of `exec` whose command has no meaning yet. No arm raises it in this model. Safe. -/
  | notModelled (mnemonic : String)
deriving DecidableEq, Repr

/-- The machine after power-on reset (R36, R160): unconfigured, both channels empty, the parameters at their defaults (R7).
`SEL`, `RING`, `POS` and `PLUG` are unspecified in the spec; their zeros are DESIGN CHOICES (log 3). -/
def State.reset : State where
  sel        := #v[0, 0, 0]
  ring       := #v[0, 0, 0]
  pos        := #v[0, 0, 0]
  plug       := Vector.replicate 26 0
  configured := false
  chan       := .idle
  par        := defaultParams
  host       := []
  received   := []
  free       := 0

end Sys2Proof.Machine
end

