-- ==== Sys2Proof/Machine/Operands.lean ====
section
/-! DEFINITION. The leaf functions of 40_alphabet_modulo.md (modulo, the alphabet, characters) and the operand forms of
30_encoding.md R65 to R69. -/
namespace Sys2Proof.Machine

/-- `mod(n, m)`, the true modulo: for positive m the r in [0, m) with n - r divisible by m (R81). -/
def mod (n m : Int) : Int := n % m

/-- `mod(n, 26)` as a letter index (R10: every `Int` is reduced so before it is stored or used as an index). -/
def modIdx (n : Int) : Idx :=
  ⟨(mod n 26).toNat, by unfold mod; omega⟩

/-- `indexOf` (R83): the place of a letter in the alphabet, as an `Int` for the exact arithmetic of R82. -/
def indexOf (c : Letter) : Int := c.val

/-- `letterAt` (R83): the letter at a place, the identity on wires. -/
def letterAt (j : Idx) : Letter := j

/-- `isLetter(ch)`: 0x41 to 0x5A (R84). -/
def isLetter (ch : Byte) : Bool := 0x41 ≤ ch.toNat && ch.toNat ≤ 0x5A

/-- `fold(ch)`: 0x61 to 0x7A minus 0x20, every other byte as it is (R85). -/
def fold (ch : Byte) : Byte :=
  if 0x61 ≤ ch.toNat && ch.toNat ≤ 0x7A then ch - 0x20 else ch

/-- `charToIdx(ch) = ch - 0x41`, with no value when ch is not a letter (R86; 93_implementation_defined.md U1, log 14). -/
def charToIdx (ch : Byte) : Option Idx :=
  if isLetter ch then some (modIdx (ch.toNat - 0x41)) else none

/-- `idxToChar(j) = 0x41 + j` (R86). -/
def idxToChar (j : Idx) : Byte := BitVec.ofNat 8 (0x41 + j.val)

/-- `sext_8(v)`: the byte as a signed integer in [-128, 127] (00_scope.md R11). -/
def sext8 (v : Byte) : Int := v.toInt

/-- `zext_8(v)`: the byte as an unsigned integer in [0, 255] (R11). -/
def zext8 (v : Byte) : Nat := v.toNat

/-- A position or ring field: `mod(sext_8(v), 26)`, every value legal (R66). -/
def normField (v : Byte) : Idx := modIdx (sext8 v)

/-- A selector field: legal when it is 0, 1 or 2 (R65), else `E_SEL_RANGE`. -/
def selField (v : Byte) : Except Status Sel :=
  if h : zext8 v < 3 then .ok ⟨zext8 v, h⟩ else .error .selRange

/-- The three selector fields, checked in slot order (45_datapath_commands.md R123). -/
def selFields (v : Vector Byte 3) : Except Status (Vector Sel 3) :=
  match selField v[0], selField v[1], selField v[2] with
  | .ok a, .ok b, .ok c => .ok #v[a, b, c]
  | .error e, _, _ => .error e
  | _, .error e, _ => .error e
  | _, _, .error e => .error e

/-- A pair letter field: folded, then a letter or nothing (R68). -/
def pairLetter (v : Byte) : Option Idx := charToIdx (fold v)

/-- The pairs a `LOAD` reads: the first n of the 13 slots (R67). -/
def usedPairs (c : Cfg) : List (Byte × Byte) := c.pairs.toList.take (zext8 c.npairs)

end Sys2Proof.Machine
end

