-- ==== Sys2Proof/Machine/Ops.lean ====
section
/-! DEFINITION. The named operations on the state: reading and writing a table entry, answering a command, ending a command
with an error status (the hardware's only kind of exception, 60_exceptions.md R140), losing the registers, the reset event,
and what the host sees at the pins. -/
namespace Sys2Proof.Machine

/-- `MemRead(T, j)` (00_scope.md R11): the entry at index j. No index over 25 exists (20_memory.md R45; log 14). -/
def memRead (t : Table) (j : Idx) : Letter := t[j]

/-- `MemWrite(T, j, v)` (R11). -/
def memWrite (t : Table) (j : Idx) (v : Letter) : Table := t.set j v

/-- `respond(st, ch)`: the command ends with this response (R11). -/
def State.respond (s : State) (st : Status) (ch : Byte) : State :=
  { s with chan := .answered ⟨ch, st⟩ }

/-- `raise st`: the command ends at once with this status and `RCHAR` 0x00 (R11; 60_exceptions.md R141). The state change
that goes with the status is the caller's: none, or `unspecify` for a failed `LOAD` (R144). There is no handler to go to
and nothing to return from (R140, R146). -/
def State.raise (s : State) (st : Status) : State := s.respond st 0x00

/-- `CONFIGURED` becomes 0 and every other register unspecified: free values (10_state.md R36, R37; log 4). -/
def State.unspecify (s : State) : State :=
  { s with
    configured := false
    sel  := Config.freeSel s.free
    ring := Config.freeRing s.free
    pos  := Config.freePos s.free
    plug := Config.freePlug s.free
    free := s.free + 1 }

/-- `fail(st)` of a `LOAD` (45_datapath_commands.md R122): no machine exists afterwards. -/
def State.failLoad (s : State) (st : Status) : State := s.unspecify.raise st

/-- The event `rst` (70_reset_and_hazards.md R160): the registers are lost, both channels are empty, and a command in
flight is dropped with no response. -/
def State.rstEvent (s : State) : State := { s.unspecify with chan := .idle }

/-- `POS[i] <- v`. -/
def State.setPos (s : State) (i : Slot) (v : Idx) : State := { s with pos := s.pos.set i v }

/-- The output `configured` (10_state.md R33). -/
def State.configuredOut (s : State) : BitVec 1 := BitVec.ofBool s.configured

/-- The output `pos_out = {POS[0], POS[1], POS[2]}` (R33). While unconfigured its value is unspecified: it is `undriven`,
an argument nothing constrains (93_implementation_defined.md U6; log 11). -/
def State.posOut (s : State) (undriven : BitVec 15) : BitVec 15 :=
  if s.configured then
    BitVec.ofNat 5 s.pos[0] ++ BitVec.ofNat 5 s.pos[1] ++ BitVec.ofNat 5 s.pos[2]
  else undriven

/-- `cmd_ready`: no command is outstanding (30_encoding.md R60). -/
def State.cmdReady (s : State) : Bool := s.chan == .idle

/-- `rsp_valid` and `rsp`: the response on the response channel, if there is one (R60). -/
def State.rspOut (s : State) : Option Response :=
  match s.chan with
  | .answered r => some r
  | .idle => none
  | .inFlight _ => none

end Sys2Proof.Machine
end

