-- ==== Sys2Proof/Machine/Plugboard.lean ====
section
/-! DEFINITION. The plugboard (42_plugboard.md): building the table, swapping a letter, and D0's scan of the pair list, which
the table form is "behaviorally identical" to (R100, R104). -/
namespace Sys2Proof.Machine

/-- The table in which every letter is its own image (R101, first loop). -/
def identityTable : Table := Vector.ofFn id

/-- Both entries of one pair (R101, one turn of the second loop). -/
def plugPair (t : Table) (p : Idx × Idx) : Table := memWrite (memWrite t p.1 p.2) p.2 p.1

/-- `buildPlug(pairs)` (R101): the identity, then every pair in list order. -/
def buildPlug (pairs : List (Idx × Idx)) : Table := pairs.foldl plugPair identityTable

/-- `swap(c) = MemRead(PLUG, indexOf(c))` (R102). -/
def State.swap (s : State) (c : Letter) : Letter := memRead s.plug c

/-- D0's form of swap (R102): scan the pairs; the other element of a pair that holds c, else c itself.
The spec gives its result for a valid list only: on a list that reuses a letter or pairs a letter with itself it is not
specified and must not be modelled (93_implementation_defined.md U3, R104). This function is total, so it has some value there
(the first pair that holds c decides): DESIGN CHOICE (log 18), a value that stands for nothing on the hardware. No meaning and
no step calls it, and the statement about it assumes a valid list. -/
def scanPairs : List (Idx × Idx) → Letter → Letter
  | [], c => c
  | (a, b) :: ps, c => if c = a then b else if c = b then a else scanPairs ps c

end Sys2Proof.Machine
end

