-- ==== Sys2Proof/Machine/Reflector.lean ====
section
/-! DEFINITION. The reflector (43_reflector.md): one constant table, no state. -/
namespace Sys2Proof.Machine

/-- `reflect(c) = MemRead(REFL, indexOf(c))` (R108). It depends on no register. -/
def reflect (p : Params) (c : Letter) : Letter := memRead p.refl c

end Sys2Proof.Machine
end

