-- ==== Sys2Proof/Machine/Flags.lean ====
section
/-! DEFINITION. The hardware has no stored condition codes (10_state.md R29). What stands in their place is the predicate
at-notch, computed from the registers inside each keypress and never stored (41_rotor.md R92). -/
namespace Sys2Proof.Machine

/-- `NOTCH[i] = CAT_NOTCH[SEL[i]]` (R31). -/
def State.notch (s : State) (i : Slot) : Letter := s.par.cat[s.sel[i]].notch

/-- `atNotch(i)`: the letter at the slot's position is its notch. `RING[i]` takes no part (R92). -/
def State.atNotch (s : State) (i : Slot) : Bool := s.pos[i] == s.notch i

end Sys2Proof.Machine
end

