-- ==== Sys2Proof/Machine/Rotor.lean ====
section
/-! DEFINITION. The rotor stage (41_rotor.md): step, shift, forward, backward of one slot. -/
namespace Sys2Proof.Machine

/-- `WIRING[i] = CAT_WIRING[SEL[i]]` (10_state.md R31). -/
def State.wiring (s : State) (i : Slot) : Table := s.par.cat[s.sel[i]].wiring

/-- `WIRING_INV[i]`, the inverse permutation of `WIRING[i]` (R31). -/
def State.wiringInv (s : State) (i : Slot) : Table := s.par.cat[s.sel[i]].wiringInv

/-- `step(i)`: `POS[i] <- mod(POS[i] + 1, 26)` (R91). -/
def State.stepSlot (s : State) (i : Slot) : State := s.setPos i (modIdx (s.pos[i].val + 1))

/-- `shift(i) = POS[i] - RING[i]`, an exact signed integer (R93). -/
def State.shift (s : State) (i : Slot) : Int := (s.pos[i].val : Int) - s.ring[i].val

/-- `forward(i, c)`: the signal entering from the right (R94). -/
def State.forward (s : State) (i : Slot) (c : Letter) : Letter :=
  let idx := modIdx (indexOf c + s.shift i)
  let l := memRead (s.wiring i) idx
  letterAt (modIdx (indexOf l - s.shift i))

/-- `backward(i, c)`: the exact inverse of `forward` at the same position and ring (R95; 90_conflicts.md C3). -/
def State.backward (s : State) (i : Slot) (c : Letter) : Letter :=
  let j := modIdx (indexOf c + s.shift i)
  let idx := memRead (s.wiringInv i) j
  letterAt (modIdx (idx.val - s.shift i))

end Sys2Proof.Machine
end

