-- ==== Sys2Proof/Machine/Stepper.lean ====
section
/-! DEFINITION. The stepping state machine (44_stepper_fsm.md), for both values of STEP_RULE. -/
namespace Sys2Proof.Machine

/-- Step slot i when the condition holds. -/
def State.stepIf (s : State) (cond : Bool) (i : Slot) : State := if cond then s.stepSlot i else s

/-- `stepRotors`: both predicates are read from the positions before this keypress (R113), then the slots step: by R114 for
`numbered` (90_conflicts.md C1), by R117 for `historical`. -/
def State.stepRotors (s : State) : State :=
  let middleAtNotch := s.atNotch 1
  let rightAtNotch := s.atNotch 2
  match s.par.stepRule with
  | .numbered =>
    ((s.stepIf (rightAtNotch || middleAtNotch) 0).stepIf rightAtNotch 1).stepSlot 2
  | .historical =>
    ((s.stepIf middleAtNotch 0).stepIf (rightAtNotch || middleAtNotch) 1).stepSlot 2

end Sys2Proof.Machine
end

