-- ==== Sys2Proof/Machine/Datapath.lean ====
section
/-! DEFINITION. The datapath and the meanings of the four commands (45_datapath_commands.md). -/
namespace Sys2Proof.Machine

/-- `subst(x)`, the substitution path (R127): plugboard, right, middle, left forward, reflector, left, middle, right
backward, plugboard. It reads the registers as they stand and writes nothing. -/
def State.subst (s : State) (x : Letter) : Letter :=
  let c1 := s.swap x
  let c2 := s.forward 2 c1
  let c3 := s.forward 1 c2
  let c4 := s.forward 0 c3
  let c5 := reflect s.par c4
  let c6 := s.backward 0 c5
  let c7 := s.backward 1 c6
  let c8 := s.backward 2 c7
  s.swap c8

/-- The pair checks of `validate` (R123), in list order: within a pair non-letter, then self-pair, then reuse. `used` holds
the letters of the pairs before. A list that passes is answered as letter pairs. -/
def checkPairs (used : List Idx) : List (Byte × Byte) → Except Status (List (Idx × Idx))
  | [] => .ok []
  | (pa, pb) :: rest =>
    match pairLetter pa, pairLetter pb with
    | some a, some b =>
      if a = b then .error .plugSelf
      else if a ∈ used ∨ b ∈ used then .error .plugReuse
      else
        match checkPairs (a :: b :: used) rest with
        | .ok ps => .ok ((a, b) :: ps)
        | .error e => .error e
    | _, _ => .error .plugNonletter

/-- `validate(CFG)` (R123): selectors, then the pair count, then the pairs; the first check that fails decides the status.
A record that passes gives the selectors and the pair list `commit` stores. -/
def validate (c : Cfg) : Except Status (Vector Sel 3 × List (Idx × Idx)) :=
  match selFields c.sel with
  | .error e => .error e
  | .ok sel =>
    if zext8 c.npairs > 13 then .error .plugCount
    else
      match checkPairs [] (usedPairs c) with
      | .error e => .error e
      | .ok pairs => .ok (sel, pairs)

/-- `commit(CFG)` of a validated record, and `CONFIGURED <- 1` (R122, R124). -/
def State.commit (s : State) (c : Cfg) (sel : Vector Sel 3) (pairs : List (Idx × Idx)) : State :=
  { s with
    sel  := sel
    pos  := Vector.ofFn fun i => normField c.pos[i]
    ring := Vector.ofFn fun i => normField c.ring[i]
    plug := buildPlug pairs
    configured := true }

/-- One keypress (R125): step, then substitute at the stepped positions, then answer the letter. -/
def State.keypress (s : State) (x : Letter) : State :=
  let t := s.stepRotors
  t.respond .ok (idxToChar (t.subst x))

/-- `encryptChar` of one byte (R125, R126): the shared body of `ENC` and `PROC`. -/
def encipher (ch : Byte) (s : State) : Host.Outcome State Fault Refusal :=
  if s.configured then
    match charToIdx ch with
    | none => .next (s.respond .ok ch)
    | some x => .next (s.keypress x)
  else .next (s.raise .notConfigured)

/-- `NOP` (R121): answers `OK`, 0x00. -/
def execNop (s : State) : Host.Outcome State Fault Refusal := .next (s.respond .ok 0x00)

/-- `LOAD` (R122): construct a machine, or lose the one there was. -/
def execLoad (cfg : Cfg) (s : State) : Host.Outcome State Fault Refusal :=
  match validate cfg with
  | .error st => .next (s.failLoad st)
  | .ok (sel, pairs) => .next ((s.commit cfg sel pairs).respond .ok 0x00)

/-- `ENC` (R125, R126): the byte as it is; only upper-case letters are letters. -/
def execEnc (ch : Byte) (s : State) : Host.Outcome State Fault Refusal := encipher ch s

/-- `PROC` (R128): the byte folded first. -/
def execProc (ch : Byte) (s : State) : Host.Outcome State Fault Refusal := encipher (fold ch) s

end Sys2Proof.Machine
end

