-- ==== Sys2Proof/Machine/Dispatch.lean ====
section
/-! DEFINITION. The dispatch of a decoded command to its meaning (45_datapath_commands.md R120). -/
namespace Sys2Proof.Machine

/-- The meaning of every command. -/
def exec (i : Instr) (s : State) : Host.Outcome State Fault Refusal :=
  match i with
  | .nop => Sys2Proof.Machine.execNop s
  | .load cfg => Sys2Proof.Machine.execLoad cfg s
  | .enc ch => Sys2Proof.Machine.execEnc ch s
  | .proc ch => Sys2Proof.Machine.execProc ch s

end Sys2Proof.Machine
end

