-- ==== Sys2Proof/Machine/Handshake.lean ====
section
/-! DEFINITION. One step of the engine with the host at its pins (30_encoding.md R60; 45_datapath_commands.md R120;
70_reset_and_hazards.md R160, R161): accept a packet, execute the command in flight, hand over the response, reset. -/
namespace Sys2Proof.Machine

/-- Execute one accepted packet (R120): its command's meaning, or `E_ILLEGAL_OP` with no state change (30_encoding.md R71). -/
def runPacket (p : Packet) (s : State) : Host.Outcome State Fault Refusal :=
  match decode p with
  | .ok i => exec i s
  | .error _ => .next (s.raise .illegalOp)

/-- What the engine does by itself: answer the command in flight; otherwise wait (R161). -/
def engineStep (s : State) : Host.Outcome State Fault Refusal :=
  match s.chan with
  | .inFlight p => runPacket p s
  | .idle => .next s
  | .answered _ => .next s

/-- The host holds a packet on the command channel: it is accepted when `cmd_ready` is 1; a command in flight is answered
meanwhile; while a response waits to be taken nothing moves (R60). -/
def issueStep (p : Packet) (rest : List HostAction) (s : State) : Host.Outcome State Fault Refusal :=
  match s.chan with
  | .idle => .next { s with chan := .inFlight p, host := rest }
  | .inFlight _ => engineStep s
  | .answered _ => .next s

/-- The host is ready for a response: it takes the one that stands on the channel; a command in flight is answered
meanwhile (R60). -/
def takeStep (rest : List HostAction) (s : State) : Host.Outcome State Fault Refusal :=
  match s.chan with
  | .answered r => .next { s with chan := .idle, received := s.received ++ [r], host := rest }
  | .inFlight _ => engineStep s
  | .idle => .next s

/-- One step: the host's next action decides; `rst` comes before everything else (R160; log 7). -/
def hostStep (s : State) : Host.Outcome State Fault Refusal :=
  match s.host with
  | [] => engineStep s
  | .pause :: rest => engineStep { s with host := rest }
  | .rst :: rest => .next { s.rstEvent with host := rest }
  | .issue p :: rest => issueStep p rest s
  | .take :: rest => takeStep rest s

/-- A host list that does not begin with `rst`. -/
def dropRst : List HostAction → List HostAction
  | .rst :: rest => dropRst rest
  | other => other

end Sys2Proof.Machine
end

