-- ==== Sys2Proof/Machine/Step.lean ====
section
/-! DEFINITION. The step of the machine, and where the host's test word is placed. -/
namespace Sys2Proof.Machine

/-- One step (Handshake.lean). -/
def step (s : State) : Host.Outcome State Fault Refusal := hostStep s

/-- The state in which the table word is the command the engine has just accepted, so that the next step executes it. A
reset the host is about to raise would come first, so it is left out (log 15). -/
def State.withFetchWord (s : State) (nbits w : Nat) : State :=
  { s with chan := .inFlight (packetOfTableWord nbits w), host := dropRst s.host }

end Sys2Proof.Machine
end

