-- ==== Sys2Proof/Machine/Asm.lean ====
section
/-! DEFINITION. The assembler of 30_encoding.md R74 and the pseudo-instructions of R75: from a line of text to commands. It is
for writing commands down; the machine does not use it. What R74 leaves open (spacing, quoting, the forms of numbers, a
`plugraw=` whose bytes do not fit its count) is in log 17, DESIGN CHOICE. -/
namespace Sys2Proof.Machine

/-- `PROCS "text"`: one `PROC` per byte, in order (R75). -/
def procs (text : List Byte) : List Instr := text.map .proc

/-- `ENCS "text"`: one `ENC` per byte, in order (R75). -/
def encs (text : List Byte) : List Instr := text.map .enc

/-- The character codes of a line. -/
def codes (s : String) : List Nat := s.toList.map Char.toNat

/-- The bytes of an ASCII text. -/
def bytesOf (s : String) : List Byte := (codes s).map (BitVec.ofNat 8)

/-- Cut a list at every occurrence of a code. -/
def splitAtCode (c : Nat) : List Nat → List (List Nat)
  | [] => [[]]
  | x :: xs =>
    match splitAtCode c xs with
    | [] => [[x]]
    | w :: ws => if x = c then [] :: w :: ws else (x :: w) :: ws

/-- The words of a line: what stands between spaces. -/
def wordsOf (l : List Nat) : List (List Nat) := (splitAtCode 0x20 l).filter (· ≠ [])

/-- Drop a leading keyword. -/
def dropKeyword : List Nat → List Nat → Option (List Nat)
  | [], rest => some rest
  | k :: ks, x :: xs => if k = x then dropKeyword ks xs else none
  | _ :: _, [] => none

/-- Where the comment scanner is: at the beginning of a word (where alone a quote opens, log 17), inside a word, after the
opening apostrophe of a character, in a quoted text. -/
inductive QuoteState where
  | gap
  | word
  | charBody
  | text
deriving DecidableEq, Repr

/-- Drop a comment: everything from the first `;` outside quotes (R74). R74 does not say what a `;` inside quotes is, nor
where a quote opens: here at the beginning of a word only, so that an apostrophe or a double quote in an item of `plug=` is a
character like any other and a comment after it is cut; a `;` in such an item starts a comment. DESIGN CHOICE (log 17). -/
def dropComment : QuoteState → List Nat → List Nat
  | _, [] => []
  | .gap, x :: xs =>
    if x = 0x3B then []
    else if x = 0x20 then x :: dropComment .gap xs
    else if x = 0x27 then x :: dropComment .charBody xs
    else if x = 0x22 then x :: dropComment .text xs
    else x :: dropComment .word xs
  | .word, x :: xs =>
    if x = 0x3B then []
    else if x = 0x20 then x :: dropComment .gap xs
    else x :: dropComment .word xs
  | .charBody, x :: [] => [x]
  | .charBody, x :: y :: xs => x :: y :: dropComment .word xs
  | .text, x :: xs => if x = 0x22 then x :: dropComment .word xs else x :: dropComment .text xs

/-- A digit below the base. -/
def digit (base c : Nat) : Option Nat :=
  let v := if 0x30 ≤ c ∧ c ≤ 0x39 then c - 0x30
    else if 0x41 ≤ c ∧ c ≤ 0x46 then c - 0x37
    else if 0x61 ≤ c ∧ c ≤ 0x66 then c - 0x57
    else base
  if v < base then some v else none

/-- The number so far, and the digits after it. -/
def numberFrom (base : Nat) : Nat → List Nat → Option Nat
  | acc, [] => some acc
  | acc, c :: cs =>
    match digit base c with
    | some d => numberFrom base (acc * base + d) cs
    | none => none

/-- A number of one digit or more. -/
def number (base : Nat) : List Nat → Option Nat
  | [] => none
  | c :: cs => numberFrom base 0 (c :: cs)

/-- A decimal integer 0..255 as a byte (R74, selectors). -/
def unsignedField (l : List Nat) : Option Byte :=
  match number 10 l with
  | some n => if n ≤ 255 then some (BitVec.ofNat 8 n) else none
  | none => none

/-- A decimal integer -128..127 as a byte (R74, positions and rings). -/
def signedField : List Nat → Option Byte
  | 0x2D :: cs =>
    match number 10 cs with
    | some n => if n ≤ 128 then some (BitVec.ofInt 8 (-(n : Int))) else none
    | none => none
  | cs =>
    match number 10 cs with
    | some n => if n ≤ 127 then some (BitVec.ofNat 8 n) else none
    | none => none

/-- A byte as two hexadecimal digits. -/
def hexByte (l : List Nat) : Option Byte :=
  match l with
  | [_, _] => (number 16 l).map (BitVec.ofNat 8)
  | _ => none

/-- A printable ASCII character. -/
def printable (c : Nat) : Bool := 0x20 ≤ c && c ≤ 0x7E

/-- Three fields between commas. -/
def threeFields (field : List Nat → Option Byte) (l : List Nat) : Option (Vector Byte 3) :=
  match (splitAtCode 0x2C l).map field with
  | [some a, some b, some c] => some #v[a, b, c]
  | _ => none

/-- One two-character pair item. -/
def pairItem : List Nat → Option (Byte × Byte)
  | [a, b] => if printable a && printable b then some (BitVec.ofNat 8 a, BitVec.ofNat 8 b) else none
  | _ => none

/-- `plug=<pairs>`: `-` or two-character items between commas; case is not changed (R74). -/
def plugItems (l : List Nat) : Option (List (Byte × Byte)) :=
  if l = [0x2D] then some [] else (splitAtCode 0x2C l).mapM pairItem

/-- Bytes taken two by two. -/
def pairUp : List Byte → Option (List (Byte × Byte))
  | [] => some []
  | a :: b :: rest => (pairUp rest).map ((a, b) :: ·)
  | [_] => none

/-- `plugraw=<n>:<hex bytes>`, the bytes being words of their own after the first (R74, 00_scope.md R9).
R74 does not say what bytes that do not match `<n>` mean. The model's choice (DESIGN CHOICE, log 17): an odd number of bytes is
refused here; any number of pairs is accepted here, and `loadArgs` and `cfgWith` say what becomes of them. -/
def plugRaw (first : List Nat) (more : List (List Nat)) : Option (Nat × List (Byte × Byte)) :=
  match splitAtCode 0x3A first with
  | [n, b] =>
    match number 10 n, ((b :: more).filter (· ≠ [])).mapM hexByte with
    | some k, some bs => (pairUp bs).map fun ps => (k, ps)
    | _, _ => none
  | _ => none

/-- The plugboard argument: the pair count and the pairs. -/
def plugArg : List (List Nat) → Option (Nat × List (Byte × Byte))
  | [] => none
  | w :: more =>
    match dropKeyword (codes "plug=") w, dropKeyword (codes "plugraw=") w, more with
    | some l, _, [] => (plugItems l).map fun ps => (ps.length, ps)
    | _, some l, _ => plugRaw l more
    | _, _, _ => none

/-- The record with this pair count and these pairs in the first slots, ignored slots canonical (R72). Only a `plugraw=` can
bring pairs that do not match the count, and R74 does not say what they mean; the model's choice (DESIGN CHOICE, log 17): a
slot for which no pair is given holds 00 00, and with a count of at most 13 the pairs past it are dropped. -/
def cfgWith (sel pos ring : Vector Byte 3) (n : Byte) (ps : List (Byte × Byte)) : Cfg where
  sel := sel
  pos := pos
  ring := ring
  npairs := n
  pairs := Vector.ofFn fun k => if Cfg.ignoresPair n k then (0, 0) else ps.getD k (0, 0)

/-- The arguments of `LOAD`. Pairs past the thirteenth slot have no place in the record: the line is refused (for `plug=` R74
points to `plugraw=`; for `plugraw=` R74 is silent: DESIGN CHOICE, log 17). -/
def loadArgs : List (List Nat) → Option Instr
  | w0 :: w1 :: w2 :: rest =>
    match (dropKeyword (codes "sel=") w0).bind (threeFields unsignedField),
      (dropKeyword (codes "pos=") w1).bind (threeFields signedField),
      (dropKeyword (codes "ring=") w2).bind (threeFields signedField), plugArg rest with
    | some sel, some pos, some ring, some (n, ps) =>
      if n ≤ 255 ∧ ps.length ≤ 13 then some (.load (cfgWith sel pos ring (BitVec.ofNat 8 n) ps)) else none
    | _, _, _, _ => none
  | _ => none

/-- `'c'` or `0xNN` (R74). -/
def charArg : List Nat → Option Byte
  | [0x27, c, 0x27] => if printable c then some (BitVec.ofNat 8 c) else none
  | 0x30 :: 0x78 :: hs => hexByte hs
  | _ => none

/-- `"text"` (R75). -/
def textArg : List Nat → Option (List Byte)
  | 0x22 :: rest =>
    match splitAtCode 0x22 rest with
    | [t, []] => if t.all printable then some (t.map (BitVec.ofNat 8)) else none
    | _ => none
  | _ => none

/-- Drop spaces at the front. -/
def trimFront (l : List Nat) : List Nat := l.dropWhile (· = 0x20)

/-- Drop spaces at both ends. -/
def trim (l : List Nat) : List Nat := (trimFront (trimFront l).reverse).reverse

/-- One line: no command (an empty line or only a comment), one command, or the commands of a pseudo-instruction; nothing
when the line is not of R74's form. -/
def assemble (line : String) : Option (List Instr) :=
  let l := trim (dropComment .gap (codes line))
  if l = [] then some []
  else if l = codes "NOP" then some [.nop]
  else
    match dropKeyword (codes "LOAD ") l, dropKeyword (codes "ENC ") l, dropKeyword (codes "PROC ") l,
      dropKeyword (codes "ENCS ") l, dropKeyword (codes "PROCS ") l with
    | some r, _, _, _, _ => (loadArgs (wordsOf r)).map fun i => [i]
    | _, some r, _, _, _ => (charArg (trim r)).map fun c => [.enc c]
    | _, _, some r, _, _ => (charArg (trim r)).map fun c => [.proc c]
    | _, _, _, some r, _ => (textArg (trim r)).map encs
    | _, _, _, _, some r => (textArg (trim r)).map procs
    | _, _, _, _, _ => none

/-- A program: its lines in order (R74: one command per line). -/
def assembleAll : List String → Option (List Instr)
  | [] => some []
  | line :: rest =>
    match assemble line, assembleAll rest with
    | some a, some b => some (a ++ b)
    | _, _ => none

end Sys2Proof.Machine
end

