-- ==== Sys2Proof/Safety.lean ====
section
/-! DEFINITION. The terms claims are stated in: the machine's invariant, a good run, the transcript of a sequence of commands,
the host script that issues them, and when a configuration record is legal. -/
namespace Sys2Proof.Machine

/-- The invariant of the machine: the parameters are well formed (00_scope.md R8), and in a configured engine the plugboard
table is an involution (10_state.md R32). The ranges of R24 are in the types of the registers. -/
def State.Inv (s : State) : Prop :=
  s.par.wellFormed = true ∧ (s.configured = true → ∀ c : Letter, s.swap (s.swap c) = c)

/-- A good run: every response had status `OK` (00_scope.md R15, 60_exceptions.md R140). -/
def goodRun (rs : List Response) : Prop := ∀ r ∈ rs, r.status = .ok

/-- The letter a command presses when the engine is configured (R18, keypress), if any. -/
def keyLetter : Instr → Option Letter
  | .nop => none
  | .load _ => none
  | .enc ch => charToIdx ch
  | .proc ch => charToIdx (fold ch)

/-- A command that constructs or destroys a machine. -/
def isLoad : Instr → Bool
  | .nop => false
  | .load _ => true
  | .enc _ => false
  | .proc _ => false

/-- How many commands of a list are keypresses. -/
def keypresses (is : List Instr) : Nat := (is.filter fun i => (keyLetter i).isSome).length

/-- One command executed and its response taken by the host: the response and the state after it, both channels empty. -/
def answer (i : Instr) (s : State) : Option (Response × State) :=
  match exec i s with
  | .next t =>
    match t.chan with
    | .answered r => some (r, { t with chan := .idle })
    | .idle => none
    | .inFlight _ => none
  | .fault _ => none
  | .refused _ => none

/-- A sequence of commands executed one after another: the responses in order and the state at the end (20_memory.md R48). -/
def transcript : List Instr → State → Option (List Response × State)
  | [], s => some ([], s)
  | i :: is, s =>
    match answer i s with
    | none => none
    | some (r, t) =>
      match transcript is t with
      | none => none
      | some (rs, u) => some (r :: rs, u)

/-- The host actions that issue a sequence of commands and take every response (30_encoding.md R60). -/
def hostScript (is : List Instr) : List HostAction := is.flatMap fun i => [.issue (encode i), .take]

/-- The letters of a pair list, in order. -/
def pairLetters (ps : List (Idx × Idx)) : List Idx := ps.flatMap fun p => [p.1, p.2]

/-- A valid pair list: all its letters are different (42_plugboard.md R100, R101). -/
def validPairs (ps : List (Idx × Idx)) : Prop := (pairLetters ps).Nodup

/-- The raw pairs are these letter pairs after folding (30_encoding.md R68). -/
def readsAsPairs (raw : List (Byte × Byte)) (ps : List (Idx × Idx)) : Prop :=
  raw.map (fun q => (pairLetter q.1, pairLetter q.2)) = ps.map (fun p => (some p.1, some p.2))

/-- A legal configuration record with this pair list (45_datapath_commands.md R123). -/
def legalRecord (c : Cfg) (ps : List (Idx × Idx)) : Prop :=
  (∀ i : Slot, c.sel[i].toNat ≤ 2) ∧ c.npairs.toNat ≤ 13 ∧ readsAsPairs (usedPairs c) ps ∧ validPairs ps

/-- The outcome is a next state whose response channel holds this response. -/
def answersWith (o : Host.Outcome State Fault Refusal) (r : Response) : Prop :=
  ∃ t, o = .next t ∧ t.chan = .answered r

end Sys2Proof.Machine
end

