-- ==== Sys2Proof/Certificates/Slice0/Obligations.lean ====
section
/-! DEFINITION. The statements for the provers, from the numbered rules of spec/. -/
open Sys2Proof Sys2Proof.Machine Host

-- ---------------------------------------------------------------- the step and the channels

/-- R120: an accepted packet is decoded by its opcode and executed in one step, which gives one response; an illegal opcode
gives `E_ILLEGAL_OP` and no other change. A pause of the host is passed over in the same step. -/
def Obligations.StepRunsAcceptedCommand : Prop :=
  ∀ (s : State) (p : Packet), s.chan = .inFlight p → s.host.head? ≠ some .rst →
    ∃ u : State, (u = s ∧ s.host.head? ≠ some .pause ∨ ∃ rest, s.host = .pause :: rest ∧ u = { s with host := rest }) ∧
      (∀ i, decode p = .ok i → step s = exec i u) ∧
      (∀ e, decode p = .error e → step s = .next { u with chan := .answered ⟨0x00, .illegalOp⟩ }) ∧
      ∃ t r, step s = .next t ∧ t.chan = .answered r

/-- R60, R161, in the model's own steps (log 6, log 7): a packet is accepted exactly when no command is outstanding; a
response is taken exactly when there is one; meanwhile a command in flight is answered; with nothing to do the engine waits. -/
def Obligations.HandshakeMovesOnlyWhenReady : Prop :=
  ∀ (s : State) (rest : List HostAction),
    (∀ p, s.host = .issue p :: rest →
      (s.chan = .idle → step s = .next { s with chan := .inFlight p, host := rest }) ∧
      (∀ q, s.chan = .inFlight q → step s = runPacket q s) ∧
      (∀ r, s.chan = .answered r → step s = .next s)) ∧
    (s.host = .take :: rest →
      (∀ r, s.chan = .answered r →
        step s = .next { s with chan := .idle, received := s.received ++ [r], host := rest }) ∧
      (∀ q, s.chan = .inFlight q → step s = runPacket q s) ∧
      (s.chan = .idle → step s = .next s)) ∧
    (s.host = [] → s.chan = .idle → step s = .next s)

/-- R60, R48: a script that issues n commands and takes every response runs in 3n steps, yields exactly n responses, in
command order, and leaves the registers as the commands executed one after another leave them. (Three steps a command, accept,
execute, take, are the model's own, log 7.) -/
def Obligations.ScriptGivesOneResponsePerCommand : Prop :=
  ∀ (is : List Instr) (rest : List HostAction) (s : State), (∀ i ∈ is, i.wellFormed = true) → s.chan = .idle →
    s.host = hostScript is ++ rest →
    ∃ rs t, transcript is { s with host := rest } = some (rs, t) ∧ rs.length = is.length ∧
      Host.Core.run Sys2Proof.core (3 * is.length) s = .next { t with received := s.received ++ rs }

/-- R120, R140: no step stops the machine. -/
def Obligations.EveryStepAnswersNextState : Prop :=
  ∀ s : State, ∃ t, step s = .next t

-- ---------------------------------------------------------------- encodings

/-- R62, R64: four packets written out from the encoding decode to the commands they stand for, and one to none. -/
def Obligations.KnownPacketsDecode : Prop :=
  decode (packetOfBytes [0x00]) = .ok .nop ∧
  decode (packetOfBytes [0x02, 0x41]) = .ok (.enc 0x41) ∧
  decode (packetOfBytes [0x03, 0x2C]) = .ok (.proc 0x2C) ∧
  decode (packetOfBytes
    [0x01, 0x00, 0x02, 0x00, 0x01, 0x1E, 0xFF, 0x15, 0x01, 0x1B, 0xFD, 0x02, 0x61, 0x4D, 0x54, 0x67]) =
    .ok (.load { sel := #v[2, 0, 1], pos := #v[0x1E, 0xFF, 0x15], ring := #v[0x01, 0x1B, 0xFD], npairs := 2,
                 pairs := #v[(0x61, 0x4D), (0x54, 0x67), (0, 0), (0, 0), (0, 0), (0, 0), (0, 0), (0, 0), (0, 0), (0, 0),
                   (0, 0), (0, 0), (0, 0)] }) ∧
  decode (packetOfBytes [0x04, 0x41]) = .error (.illegalOp 0x04)

/-- R64, R71: the opcode byte alone decides the command; 0x04 to 0xFF are illegal, answered `E_ILLEGAL_OP` with 0x00 and no
state change; the decoder answers one of the four commands or "illegal" for every packet. -/
def Obligations.OpcodeByteDecides : Prop :=
  ∀ p : Packet,
    (byteAt p 0 = 0x00 → decode p = .ok .nop) ∧
    (byteAt p 0 = 0x01 → ∃ c, decode p = .ok (.load c)) ∧
    (byteAt p 0 = 0x02 → ∃ ch, decode p = .ok (.enc ch)) ∧
    (byteAt p 0 = 0x03 → ∃ ch, decode p = .ok (.proc ch)) ∧
    (4 ≤ (byteAt p 0).toNat → decode p = .error (.illegalOp (byteAt p 0)) ∧
      ∀ s : State, runPacket p s = .next { s with chan := .answered ⟨0x00, .illegalOp⟩ })

/-- R62: every field stands at its bits of the packet. That a pair slot which `LOAD` ignores (R72) reads as (0, 0) in the
decoded command is the model's choice (DESIGN CHOICE, log 12): R72 says only that the slot has no effect. -/
def Obligations.PacketFieldsAtTheirBits : Prop :=
  ∀ p : Packet,
    (p.extractLsb' 0 8 = 0x02 → decode p = .ok (.enc (p.extractLsb' 8 8))) ∧
    (p.extractLsb' 0 8 = 0x03 → decode p = .ok (.proc (p.extractLsb' 8 8))) ∧
    (p.extractLsb' 0 8 = 0x01 → ∃ c : Cfg, decode p = .ok (.load c) ∧
      (∀ i : Slot, c.sel[i] = p.extractLsb' (16 + 8 * i.val) 8 ∧ c.pos[i] = p.extractLsb' (40 + 8 * i.val) 8 ∧
        c.ring[i] = p.extractLsb' (64 + 8 * i.val) 8) ∧
      c.npairs = p.extractLsb' 88 8 ∧
      ∀ k : Fin 13, c.pairs[k] =
        if c.npairs.toNat ≤ 13 ∧ c.npairs.toNat ≤ k.val then (0, 0)
        else (p.extractLsb' (96 + 16 * k.val) 8, p.extractLsb' (104 + 16 * k.val) 8))

/-- Decode after encode is the identity on every well-formed command, with every operand at every value. A well-formed `LOAD`
has zeros in its ignored pair slots: R72's canonical encoding, carried into the decoded command by the model's choice (DESIGN
CHOICE, log 12). -/
def Obligations.DecodeEncodeRoundTrip : Prop :=
  ∀ i : Instr, i.wellFormed = true → decode (encode i) = .ok i

/-- Whatever packet it reads, the decoder answers a well-formed command, whose canonical packet decodes alike. That a decoded
`LOAD` carries zeros for the pair bytes it ignores, and is well formed for that reason, is the model's choice (DESIGN CHOICE,
log 12): R72 does not say what a decoded command carries. -/
def Obligations.DecodedCommandsAreCanonical : Prop :=
  ∀ (p : Packet) (i : Instr), decode p = .ok i → i.wellFormed = true ∧ decode (encode i) = decode p

/-- R72: ignored fields have no effect on state or response, and the canonical packet has them zero. The clause that they have
no effect on the decoded command either (`decode p = decode q`) is, for the pair slots of `LOAD`, the model's choice (DESIGN
CHOICE, log 12): the decoder drops their bytes. -/
def Obligations.IgnoredFieldsHaveNoEffect : Prop :=
  (∀ p q : Packet, byteAt p 0 = byteAt q 0 →
    (byteAt p 0 = 0x00 ∨
     ((byteAt p 0 = 0x02 ∨ byteAt p 0 = 0x03) ∧ byteAt p 1 = byteAt q 1) ∨
     (byteAt p 0 = 0x01 ∧ (∀ k, 2 ≤ k → k ≤ 11 → byteAt p k = byteAt q k) ∧
      ∀ k, k < 13 → (13 < (byteAt p 11).toNat ∨ k < (byteAt p 11).toNat) →
        byteAt p (12 + 2 * k) = byteAt q (12 + 2 * k) ∧ byteAt p (13 + 2 * k) = byteAt q (13 + 2 * k))) →
    decode p = decode q ∧ ∀ s : State, runPacket p s = runPacket q s) ∧
  (∀ k, 1 ≤ k → byteAt (encode .nop) k = 0) ∧
  (∀ k ch, 2 ≤ k → byteAt (encode (.enc ch)) k = 0 ∧ byteAt (encode (.proc ch)) k = 0) ∧
  (∀ c : Cfg, c.wellFormed = true → byteAt (encode (.load c)) 1 = 0 ∧
    ∀ k, k < 13 → c.npairs.toNat ≤ 13 → c.npairs.toNat ≤ k →
      byteAt (encode (.load c)) (12 + 2 * k) = 0 ∧ byteAt (encode (.load c)) (13 + 2 * k) = 0)

/-- R74, R72: whatever line it reads, the assembler emits commands in the canonical encoding. (Which lines it reads, where R74
is silent, is the model's choice, log 17.) -/
def Obligations.AssemblerEmitsCanonicalCommands : Prop :=
  ∀ (line : String) (is : List Instr), assemble line = some is → ∀ i ∈ is, i.wellFormed = true

/-- R70: the two fields of a response packet and the eight status codes; `RCHAR` is 0x00 on every response of `NOP` and `LOAD`,
of an illegal opcode, and on every response whose status is not `OK`. -/
def Obligations.ResponsePacketFields : Prop :=
  (∀ r : Response, r.packet.extractLsb' 0 8 = r.char ∧ r.packet.extractLsb' 8 8 = r.status.code) ∧
  [Status.ok, .illegalOp, .notConfigured, .selRange, .plugCount, .plugNonletter, .plugSelf, .plugReuse].map Status.code =
    [0x00, 0x01, 0x02, 0x10, 0x11, 0x12, 0x13, 0x14] ∧
  (∀ st : Status, st.code ∈ [0x00#8, 0x01, 0x02, 0x10, 0x11, 0x12, 0x13, 0x14]) ∧
  ∀ (p : Packet) (s : State), ∃ t r, runPacket p s = .next t ∧ t.chan = .answered r ∧
    (r.status ≠ .ok ∨ byteAt p 0 = 0x00 ∨ byteAt p 0 = 0x01 → r.char = 0x00)

/-- R141: which statuses each command can end with, and when `E_NOT_CONFIGURED` is the one. -/
def Obligations.StatusesOfEachCommand : Prop :=
  ∀ (i : Instr) (s : State), ∃ t r, exec i s = .next t ∧ t.chan = .answered r ∧
    (i = .nop → r.status = .ok) ∧
    ((∃ c, i = .load c) → r.status ∈ [Status.ok, .selRange, .plugCount, .plugNonletter, .plugSelf, .plugReuse]) ∧
    ((∃ ch, i = .enc ch ∨ i = .proc ch) →
      (s.configured = true → r.status = .ok) ∧ (s.configured = false → r.status = .notConfigured))

-- ---------------------------------------------------------------- alphabet and modulo

/-- R81: the true modulo, its uniqueness, and its form over a truncating remainder. -/
def Obligations.ModuloIsTrueModulo : Prop :=
  ∀ n m : Int, 0 < m →
    (0 ≤ mod n m ∧ mod n m < m ∧ m ∣ n - mod n m) ∧
    (∀ r, 0 ≤ r → r < m → m ∣ n - r → r = mod n m) ∧
    mod n m = Int.tmod (Int.tmod n m + m) m

/-- R84, R85, R86: letters, folding and the letter indices, for every byte. -/
def Obligations.LetterAndFoldBytes : Prop :=
  ∀ ch : Byte,
    (isLetter ch = true ↔ 0x41 ≤ ch.toNat ∧ ch.toNat ≤ 0x5A) ∧
    (fold ch).toNat = (if 0x61 ≤ ch.toNat ∧ ch.toNat ≤ 0x7A then ch.toNat - 0x20 else ch.toNat) ∧
    fold (fold ch) = fold ch ∧
    (isLetter ch = false → charToIdx ch = none) ∧
    (isLetter ch = true → ∃ j, charToIdx ch = some j ∧ j.val + 0x41 = ch.toNat ∧ idxToChar j = ch) ∧
    (∀ j, isLetter (idxToChar j) = true ∧ charToIdx (idxToChar j) = some j)

-- ---------------------------------------------------------------- rotors

/-- R91: `step(i)` adds 1 modulo 26 to `POS[i]` and writes nothing else; 26 steps return the slot. -/
def Obligations.StepSlotAddsOne : Prop :=
  ∀ (s : State) (i : Slot),
    ((s.stepSlot i).pos[i].val = (s.pos[i].val + 1) % 26) ∧
    (∀ j : Slot, j ≠ i → (s.stepSlot i).pos[j] = s.pos[j]) ∧
    s.stepSlot i = { s with pos := (s.stepSlot i).pos } ∧
    (fun u => State.stepSlot u i)^[26] s = s

/-- R92: at-notch is the position's letter against the notch; the ring takes no part; exactly one of the 26 positions is at
notch; the default notches stand at 16, 4 and 21. -/
def Obligations.AtNotchReadsPositionAlone : Prop :=
  (∀ (s : State) (i : Slot),
    (s.atNotch i = true ↔ s.pos[i] = s.par.cat[s.sel[i]].notch) ∧
    (∀ ring, State.atNotch { s with ring := ring } i = s.atNotch i) ∧
    ∃ p, (s.setPos i p).atNotch i = true ∧ ∀ q, (s.setPos i q).atNotch i = true → q = p) ∧
  (defaultParams.cat[0].notch = 16 ∧ defaultParams.cat[1].notch = 4 ∧ defaultParams.cat[2].notch = 21)

/-- R93: the shift is in [-25, 25], and forward and backward depend on position and ring through it modulo 26 alone. -/
def Obligations.SubstitutionReadsShiftAlone : Prop :=
  ∀ (s t : State) (i : Slot), s.par = t.par → s.sel[i] = t.sel[i] →
    (-25 ≤ s.shift i ∧ s.shift i ≤ 25) ∧
    (mod (s.shift i) 26 = mod (t.shift i) 26 →
      ∀ c, s.forward i c = t.forward i c ∧ s.backward i c = t.backward i c)

/-- R96: backward undoes forward and forward undoes backward, for every slot, selector, position, ring and letter, for any
well-formed tables. -/
def Obligations.RotorInverseLaw : Prop :=
  ∀ (s : State) (i : Slot) (c : Letter), s.par.wellFormed = true →
    s.backward i (s.forward i c) = c ∧ s.forward i (s.backward i c) = c

-- ---------------------------------------------------------------- plugboard and reflector

/-- R101: the built table of a valid pair list: both letters of a pair are exchanged, every other letter is its own image, and
neither the order of the pairs nor the order inside a pair matters. -/
def Obligations.BuildPlugExchangesPairs : Prop :=
  ∀ ps : List (Idx × Idx), validPairs ps →
    (∀ a b, (a, b) ∈ ps → (buildPlug ps)[a] = b ∧ (buildPlug ps)[b] = a) ∧
    (∀ c, c ∉ pairLetters ps → (buildPlug ps)[c] = c) ∧
    (∀ qs, validPairs qs → (∀ a b, (a, b) ∈ qs ∨ (b, a) ∈ qs ↔ (a, b) ∈ ps ∨ (b, a) ∈ ps) → buildPlug qs = buildPlug ps)

/-- R104: for a valid pair list the table lookup returns what D0's scan of the pairs returns. Nothing is said
of a list that is not valid: the scan's result there is not specified (93_implementation_defined.md U3, log 18). -/
def Obligations.PlugTableAgreesWithScan : Prop :=
  ∀ (ps : List (Idx × Idx)) (c : Letter), validPairs ps → memRead (buildPlug ps) c = scanPairs ps c

/-- R103: after every `LOAD` that leaves a configured engine, swapping twice returns the letter. -/
def Obligations.LoadedPlugboardIsInvolution : Prop :=
  ∀ (cfg : Cfg) (s t : State), exec (.load cfg) s = .next t → t.configured = true → ∀ c, t.swap (t.swap c) = c

/-- R109, R8: the reflector is an involution without a fixed point for well-formed parameters, and the defaults are well formed. -/
def Obligations.ReflectorInvolutionWithoutFixedPoint : Prop :=
  (∀ (p : Params) (c : Letter), p.wellFormed = true → reflect p (reflect p c) = c ∧ reflect p c ≠ c) ∧
  defaultParams.wellFormed = true

-- ---------------------------------------------------------------- the stepper

/-- R113, R114: the numbered rule as a function on positions, with both predicates read before any slot steps; nothing but
`POS` is written. -/
def Obligations.NumberedStepping : Prop :=
  ∀ s : State, s.par.stepRule = .numbered →
    (s.stepRotors.pos[0].val = (s.pos[0].val + if s.atNotch 2 = true ∨ s.atNotch 1 = true then 1 else 0) % 26) ∧
    (s.stepRotors.pos[1].val = (s.pos[1].val + if s.atNotch 2 = true then 1 else 0) % 26) ∧
    (s.stepRotors.pos[2].val = (s.pos[2].val + 1) % 26) ∧
    s.stepRotors = { s with pos := s.stepRotors.pos }

/-- R117: the historical rule, the other value of the parameter. -/
def Obligations.HistoricalStepping : Prop :=
  ∀ s : State, s.par.stepRule = .historical →
    (s.stepRotors.pos[0].val = (s.pos[0].val + if s.atNotch 1 = true then 1 else 0) % 26) ∧
    (s.stepRotors.pos[1].val = (s.pos[1].val + if s.atNotch 2 = true ∨ s.atNotch 1 = true then 1 else 0) % 26) ∧
    (s.stepRotors.pos[2].val = (s.pos[2].val + 1) % 26) ∧
    s.stepRotors = { s with pos := s.stepRotors.pos }

/-- R115 (b), R116: under the numbered rule the middle slot moves exactly when the right slot stood at its notch, and after
such a keypress not again for 25 keypresses, and then again. -/
def Obligations.MiddleMovesOnceIn26 : Prop :=
  ∀ s : State, s.par.stepRule = .numbered →
    (s.stepRotors.pos[1] ≠ s.pos[1] ↔ s.atNotch 2 = true) ∧
    (s.atNotch 2 = true →
      (∀ k, 1 ≤ k → k ≤ 25 → (State.stepRotors^[k + 1] s).pos[1] = (State.stepRotors^[k] s).pos[1]) ∧
      (State.stepRotors^[27] s).pos[1] ≠ (State.stepRotors^[26] s).pos[1])

/-- R115 (c): while the middle slot stands at its notch, having just come there, the left slot steps on 26 keypresses in a row
and the middle slot leaves the notch on the last of them. -/
def Obligations.LeftRunsWhileMiddleAtNotch : Prop :=
  ∀ s : State, s.par.stepRule = .numbered → s.pos[2].val = ((s.notch 2).val + 1) % 26 → s.atNotch 1 = true →
    (∀ k, k ≤ 26 → (State.stepRotors^[k] s).pos[0].val = (s.pos[0].val + k) % 26) ∧
    (∀ k, k ≤ 25 → (State.stepRotors^[k] s).atNotch 1 = true) ∧
    (State.stepRotors^[26] s).atNotch 1 = false

/-- R115 (d): under the numbered rule all 17576 position triples lie on one cycle: from any positions, any positions are reached
by fewer than 17576 keypresses. -/
def Obligations.SteppingIsOneCycle : Prop :=
  ∀ s t : State, s.par = t.par → s.par.stepRule = .numbered → s.sel = t.sel →
    ∃ k, k < 17576 ∧ (State.stepRotors^[k] s).pos = t.pos

/-- R118: with equal selectors and positions, equal numbers of keypresses leave equal positions, whatever the letters, the
rings, the plugboards and the other commands in between (`LOAD` apart). -/
def Obligations.PositionsCountKeypresses : Prop :=
  ∀ (is js : List Instr) (s t s' t' : State) (rs qs : List Response),
    s.configured = true → t.configured = true → s.par = t.par → s.sel = t.sel → s.pos = t.pos →
    (∀ i ∈ is, isLoad i = false) → (∀ j ∈ js, isLoad j = false) → keypresses is = keypresses js →
    transcript is s = some (rs, s') → transcript js t = some (qs, t') →
    s'.pos = t'.pos ∧ s'.pos = (State.stepRotors^[keypresses is] s).pos

-- ---------------------------------------------------------------- the commands

/-- R121: `NOP` answers `OK`, 0x00 in every state and changes no register; its opcode is 0x00. -/
def Obligations.NopAnswersOkAndChangesNothing : Prop :=
  (∀ s : State, exec .nop s = .next { s with chan := .answered ⟨0x00, .ok⟩ }) ∧
  (∀ p : Packet, byteAt p 0 = 0x00 → decode p = .ok .nop)

/-- R124, R122: a legal `LOAD` completes in every state and constructs the machine: selectors, positions and rings normalised
by the true modulo of the signed fields, the plugboard table of the pairs, `CONFIGURED`. -/
def Obligations.LegalLoadConstructsMachine : Prop :=
  ∀ (s : State) (cfg : Cfg) (ps : List (Idx × Idx)), legalRecord cfg ps →
    ∃ t : State, exec (.load cfg) s = .next t ∧
      (∀ i : Slot, t.sel[i].val = cfg.sel[i].toNat ∧ (t.pos[i].val : Int) = mod cfg.pos[i].toInt 26 ∧
        (t.ring[i].val : Int) = mod cfg.ring[i].toInt 26) ∧
      t.plug = buildPlug ps ∧ t.configured = true ∧ t.chan = .answered ⟨0x00, .ok⟩ ∧
      t.par = s.par ∧ t.host = s.host ∧ t.received = s.received ∧ t.free = s.free

/-- R123, R144: the first check that fails, in the order of the rule, decides the status of a `LOAD`. -/
def Obligations.LoadReportsFirstFailedCheck : Prop :=
  ∀ (s : State) (cfg : Cfg),
    ((∃ i : Slot, 2 < cfg.sel[i].toNat) → answersWith (exec (.load cfg) s) ⟨0x00, .selRange⟩) ∧
    ((∀ i : Slot, cfg.sel[i].toNat ≤ 2) → 13 < cfg.npairs.toNat →
      answersWith (exec (.load cfg) s) ⟨0x00, .plugCount⟩) ∧
    ((∀ i : Slot, cfg.sel[i].toNat ≤ 2) → cfg.npairs.toNat ≤ 13 →
      ∀ (k : Fin 13) (ps : List (Idx × Idx)), k.val < cfg.npairs.toNat →
        readsAsPairs ((usedPairs cfg).take k.val) ps → validPairs ps →
        ((pairLetter cfg.pairs[k].1 = none ∨ pairLetter cfg.pairs[k].2 = none) →
          answersWith (exec (.load cfg) s) ⟨0x00, .plugNonletter⟩) ∧
        (∀ a, pairLetter cfg.pairs[k].1 = some a → pairLetter cfg.pairs[k].2 = some a →
          answersWith (exec (.load cfg) s) ⟨0x00, .plugSelf⟩) ∧
        (∀ a b, pairLetter cfg.pairs[k].1 = some a → pairLetter cfg.pairs[k].2 = some b → a ≠ b →
          (a ∈ pairLetters ps ∨ b ∈ pairLetters ps) →
          answersWith (exec (.load cfg) s) ⟨0x00, .plugReuse⟩)) ∧
    (∀ ps, legalRecord cfg ps → answersWith (exec (.load cfg) s) ⟨0x00, .ok⟩)

/-- R144, R145, R37: a `LOAD` that no pair list makes legal completes with an error status and `CONFIGURED = 0`, whatever the
state before, and touches neither the parameters nor the host's side. Nothing is said of the registers: they are unspecified. -/
def Obligations.FailedLoadLeavesNoMachine : Prop :=
  ∀ (s : State) (cfg : Cfg), (∀ ps, ¬ legalRecord cfg ps) →
    ∃ t st, exec (.load cfg) s = .next t ∧ t.configured = false ∧ t.chan = .answered ⟨0x00, st⟩ ∧ st ≠ .ok ∧
      t.par = s.par ∧ t.host = s.host ∧ t.received = s.received

/-- R38, R122: the outcome of a `LOAD` does not depend on the state before: the response is the same, and after a success all
registers are the same. -/
def Obligations.LoadDoesNotReadOldState : Prop :=
  ∀ (cfg : Cfg) (s s' t t' : State), exec (.load cfg) s = .next t → exec (.load cfg) s' = .next t' →
    t.chan = t'.chan ∧ t.configured = t'.configured ∧
    (t.configured = true → t.sel = t'.sel ∧ t.pos = t'.pos ∧ t.ring = t'.ring ∧ t.plug = t'.plug)

/-- R125, R127: `ENC`: unconfigured, `E_NOT_CONFIGURED` and no other change; a non-letter comes back; a letter steps first and
is then substituted at the stepped positions, through plugboard, right, middle, left, reflector and back. -/
def Obligations.EncStepsThenSubstitutes : Prop :=
  ∀ (s : State) (ch : Byte),
    (s.configured = false → exec (.enc ch) s = .next { s with chan := .answered ⟨0x00, .notConfigured⟩ }) ∧
    (s.configured = true → isLetter ch = false → exec (.enc ch) s = .next { s with chan := .answered ⟨ch, .ok⟩ }) ∧
    (∀ x, s.configured = true → charToIdx ch = some x →
      ∃ u c4 c8, u = s.stepRotors ∧ c4 = u.forward 0 (u.forward 1 (u.forward 2 (u.swap x))) ∧
        c8 = u.backward 2 (u.backward 1 (u.backward 0 (reflect s.par c4))) ∧
        exec (.enc ch) s = .next { s with pos := u.pos, chan := .answered ⟨idxToChar (u.swap c8), .ok⟩ })

/-- R126: under `ENC` a byte that is no letter comes back bit for bit and no state changes; a lower-case letter is one such. -/
def Obligations.EncPassesNonLetters : Prop :=
  ∀ (s : State) (ch : Byte), s.configured = true →
    (isLetter ch = false → exec (.enc ch) s = .next { s with chan := .answered ⟨ch, .ok⟩ }) ∧
    (0x61 ≤ ch.toNat → ch.toNat ≤ 0x7A → exec (.enc ch) s = .next { s with chan := .answered ⟨ch, .ok⟩ })

/-- R128: `PROC` is `ENC` of the folded byte; unconfigured, `E_NOT_CONFIGURED`; a byte that is no letter after folding comes back
as it went in; a letter of either case is a keypress, answered upper case. -/
def Obligations.ProcEnciphersFoldedByte : Prop :=
  ∀ (s : State) (ch : Byte),
    exec (.proc ch) s = exec (.enc (fold ch)) s ∧
    (s.configured = false → exec (.proc ch) s = .next { s with chan := .answered ⟨0x00, .notConfigured⟩ }) ∧
    (s.configured = true → isLetter (fold ch) = false →
      exec (.proc ch) s = .next { s with chan := .answered ⟨ch, .ok⟩ }) ∧
    (∀ x, s.configured = true → charToIdx (fold ch) = some x →
      exec (.proc ch) s = .next { s with pos := s.stepRotors.pos,
                                         chan := .answered ⟨idxToChar (s.stepRotors.subst x), .ok⟩ })

/-- R143: in a configured engine `ENC` and `PROC` always end `OK`, for every byte. -/
def Obligations.ConfiguredEngineNeverErrs : Prop :=
  ∀ (s : State) (ch : Byte), s.configured = true →
    (∃ c, answersWith (exec (.enc ch) s) ⟨c, .ok⟩) ∧ (∃ c, answersWith (exec (.proc ch) s) ⟨c, .ok⟩)

/-- Frame of the four commands (10_state.md R20 to R23): none touches the parameters, the host's list or the responses taken;
`NOP`, `ENC` and `PROC` leave `SEL`, `RING`, `PLUG` and `CONFIGURED`; `POS` changes only on a keypress of a configured engine. -/
def Obligations.CommandFrame : Prop :=
  ∀ (i : Instr) (s t : State), exec i s = .next t →
    (t.par = s.par ∧ t.host = s.host ∧ t.received = s.received) ∧
    (isLoad i = false →
      t.sel = s.sel ∧ t.ring = s.ring ∧ t.plug = s.plug ∧ t.configured = s.configured ∧ t.free = s.free ∧
      (keyLetter i = none ∨ s.configured = false → t.pos = s.pos))

/-- R131: at any state with well-formed tables and an involutive plugboard, for either stepping rule: if enciphering x answers y,
enciphering y answers x and leaves the same state. -/
def Obligations.EncipheringIsInvolution : Prop :=
  ∀ (s : State) (x : Letter), s.Inv → s.configured = true →
    ∃ (t : State) (y : Letter), exec (.enc (idxToChar x)) s = .next t ∧ t.chan = .answered ⟨idxToChar y, .ok⟩ ∧
      exec (.enc (idxToChar y)) s = .next { t with chan := .answered ⟨idxToChar x, .ok⟩ }

/-- R132: no letter enciphers to itself; the answer to a letter is a letter, the answer to a non-letter is that non-letter. -/
def Obligations.NoLetterEnciphersToItself : Prop :=
  ∀ (s : State) (ch : Byte), s.Inv → s.configured = true →
    (isLetter ch = true → ∃ c, answersWith (exec (.enc ch) s) ⟨c, .ok⟩ ∧ isLetter c = true ∧ c ≠ ch) ∧
    (isLetter ch = false → answersWith (exec (.enc ch) s) ⟨ch, .ok⟩)

/-- R130: a text of n bytes yields n responses, all `OK`, under `PROC` and under `ENC`. -/
def Obligations.OutputLengthEqualsInputLength : Prop :=
  ∀ (s : State) (text : List Byte), s.configured = true →
    (∃ rs t, transcript (procs text) s = some (rs, t) ∧ rs.length = text.length ∧ goodRun rs) ∧
    (∃ rs t, transcript (encs text) s = some (rs, t) ∧ rs.length = text.length ∧ goodRun rs)

/-- R134, D0's transparency: in a processed text every byte that is no letter after folding stands unchanged at its place, and
every letter has become another letter. -/
def Obligations.NonLettersKeepTheirPlace : Prop :=
  ∀ (s t : State) (text : List Byte) (rs : List Response), s.Inv → s.configured = true →
    transcript (procs text) s = some (rs, t) →
    ∀ (k : Nat) (ch : Byte) (r : Response), text[k]? = some ch → rs[k]? = some r →
      (isLetter (fold ch) = false → r.char = ch) ∧
      (isLetter (fold ch) = true → isLetter r.char = true ∧ r.char ≠ fold ch)

/-- R133: the round trip. From any two states with the same well-formed parameters, load one legal record into both: processing
the first's output on the second gives back the text, folded, and leaves both at the same registers. -/
def Obligations.RoundTrip : Prop :=
  ∀ (s s' : State) (cfg : Cfg) (ps : List (Idx × Idx)) (text : List Byte),
    s.par = s'.par → s.par.wellFormed = true → legalRecord cfg ps →
    ∃ r rs t r' rs' t',
      transcript (.load cfg :: procs text) s = some (r :: rs, t) ∧
      transcript (.load cfg :: procs (rs.map Response.char)) s' = some (r' :: rs', t') ∧
      rs'.map Response.char = text.map fold ∧ goodRun (r :: rs) ∧ goodRun (r' :: rs') ∧
      t.sel = t'.sel ∧ t.ring = t'.ring ∧ t.pos = t'.pos ∧ t.plug = t'.plug

/-- R163, R112: commands that are neither `LOAD` nor a keypress may stand anywhere between the keypresses: without them the
keypresses get the same responses and leave the same registers. -/
def Obligations.NonKeypressesInterleaveHarmlessly : Prop :=
  ∀ (is : List Instr) (s t : State) (rs : List Response), s.configured = true → (∀ i ∈ is, isLoad i = false) →
    transcript is s = some (rs, t) →
    ∃ qs u, transcript (is.filter fun i => (keyLetter i).isSome) s = some (qs, u) ∧
      qs = ((is.zip rs).filter fun q => (keyLetter q.1).isSome).map Prod.snd ∧
      u.sel = t.sel ∧ u.ring = t.ring ∧ u.pos = t.pos ∧ u.plug = t.plug ∧ u.configured = t.configured

/-- R162, R146: from an unconfigured engine and without a `LOAD`, every `ENC` and `PROC` is answered `E_NOT_CONFIGURED`, every
`NOP` `OK`, and no register changes. -/
def Obligations.UnconfiguredUntilLoad : Prop :=
  ∀ (is : List Instr) (s t : State) (rs : List Response), s.configured = false → (∀ i ∈ is, isLoad i = false) →
    transcript is s = some (rs, t) →
    (t.configured = false ∧ t.sel = s.sel ∧ t.ring = s.ring ∧ t.pos = s.pos ∧ t.plug = s.plug) ∧
    ∀ (k : Nat) (i : Instr) (r : Response), is[k]? = some i → rs[k]? = some r →
      r = if i = .nop then ⟨0x00, .ok⟩ else ⟨0x00, .notConfigured⟩

/-- R164: `NOP`, `ENC` or `PROC` of a non-letter, and a legal `LOAD` are idempotent in their effect on state. -/
def Obligations.IdempotentCommands : Prop :=
  ∀ (i : Instr) (s t : State),
    (i = .nop ∨ (isLoad i = false ∧ keyLetter i = none) ∨ ∃ cfg ps, i = .load cfg ∧ legalRecord cfg ps) →
    exec i s = .next t → exec i t = .next t

-- ---------------------------------------------------------------- the whole machine

/-- The invariant (parameters well formed; plugboard an involution in a configured engine, R32) is kept by every step. -/
def Obligations.StepKeepsMachineInvariant : Prop :=
  ∀ s t : State, s.Inv → step s = .next t → t.Inv

/-- The invariant holds after reset, with R7's default tables (that reset's state holds them is the model's choice, log 1). -/
def Obligations.ResetMeetsMachineInvariant : Prop := State.reset.Inv

/-- R148, R30: `CONFIGURED` goes from 0 to 1 only by a `LOAD` in flight that is answered `OK`, and from 1 to 0 only by a `LOAD`
that is answered with an error or by `rst`. -/
def Obligations.LifecycleTransitions : Prop :=
  ∀ s t : State, step s = .next t →
    (s.configured = false → t.configured = true →
      ∃ p cfg, s.chan = .inFlight p ∧ decode p = .ok (.load cfg) ∧ t.chan = .answered ⟨0x00, .ok⟩) ∧
    (s.configured = true → t.configured = false →
      s.host.head? = some .rst ∨
      ∃ p cfg st, s.chan = .inFlight p ∧ decode p = .ok (.load cfg) ∧ t.chan = .answered ⟨0x00, st⟩ ∧ st ≠ .ok)

/-- R20, R22, R23: in every step without `rst` and without a `LOAD` in flight, `SEL`, `RING`, `PLUG` and `CONFIGURED` stay, and
`POS` stays unless a configured engine executes a keypress, and then it is what one run of the stepper makes of it. -/
def Obligations.RegistersChangeOnlyAsStated : Prop :=
  ∀ s t : State, step s = .next t → s.host.head? ≠ some .rst →
    (∀ p cfg, s.chan = .inFlight p → decode p ≠ .ok (.load cfg)) →
    t.sel = s.sel ∧ t.ring = s.ring ∧ t.plug = s.plug ∧ t.configured = s.configured ∧
    (t.pos = s.pos ∨
      ∃ p i x, s.chan = .inFlight p ∧ decode p = .ok i ∧ keyLetter i = some x ∧ s.configured = true ∧
        t.pos = s.stepRotors.pos)

/-- R34, R110: no step writes the constant tables or the stepping rule. -/
def Obligations.ParametersNeverChange : Prop :=
  ∀ s t : State, step s = .next t → t.par = s.par

/-- R160: the event `rst`, with a command in flight or not: `CONFIGURED = 0`, both channels empty, no response given, the
parameters as they were. Nothing is said of the registers: they are unspecified. -/
def Obligations.ResetEventEmptiesEngine : Prop :=
  ∀ (s : State) (rest : List HostAction), s.host = .rst :: rest →
    ∃ t, step s = .next t ∧ t.configured = false ∧ t.chan = .idle ∧ t.received = s.received ∧ t.par = s.par ∧
      t.host = rest

/-- R36: the state after reset: unconfigured, the output `configured` 0, both channels empty. That the constant tables and the
stepping rule stand in the state, at R7's defaults, is the model's choice (DESIGN CHOICE, log 1 for the tables, whose values are
UNVERIFIED, and log 2 for the rule): R36 says only that reset leaves the constant tables as they are. -/
def Obligations.ResetStateOfSpec : Prop :=
  State.reset.configured = false ∧ State.reset.configuredOut = 0 ∧ State.reset.chan = .idle ∧
  State.reset.par = defaultParams

/-- R33: the status outputs of a configured engine. The last clause is the model's choice (DESIGN CHOICE, log 11): while
unconfigured R33 leaves `pos_out` unspecified, and the model answers an argument that nothing constrains. -/
def Obligations.StatusOutputsShowPositions : Prop :=
  ∀ (s : State) (u : BitVec 15),
    s.configuredOut = (if s.configured = true then 1 else 0) ∧
    (s.configured = true →
      ((s.posOut u).extractLsb' 10 5).toNat = s.pos[0].val ∧ ((s.posOut u).extractLsb' 5 5).toNat = s.pos[1].val ∧
      ((s.posOut u).extractLsb' 0 5).toNat = s.pos[2].val) ∧
    (s.configured = false → s.posOut u = u)
end

