-- ==== Sys2Proof/Laws/Operands.lean ====
section
/-! SUPPORT. What the leaf functions of Operands.lean compute, as facts about integers and bytes. -/
namespace Sys2Proof.Machine

/-- The value of a reduced index is the true modulo of the integer. -/
theorem modIdx_val (n : Int) : ((modIdx n).val : Int) = n % 26 := by
  simp only [modIdx, mod]; omega

/-- Reduced indices are equal when the integers agree modulo 26. -/
theorem modIdx_eq_of_emod {a b : Int} (h : a % 26 = b % 26) : modIdx a = modIdx b := by
  apply Fin.ext
  have ha := modIdx_val a
  have hb := modIdx_val b
  omega

/-- Reducing a letter index changes nothing. -/
@[simp] theorem modIdx_coe (j : Idx) : modIdx (j.val : Int) = j := by
  apply Fin.ext
  have h := modIdx_val (j.val : Int)
  omega

/-- Adding an amount under the modulo and taking it away again gives the letter back. -/
theorem modIdx_add_sub (j : Idx) (n : Int) : modIdx ((modIdx (j.val + n)).val - n) = j := by
  apply Fin.ext
  have h1 := modIdx_val (j.val + n)
  have h2 := modIdx_val ((modIdx (j.val + n)).val - n)
  omega

/-- Taking an amount away under the modulo and adding it again gives the letter back. -/
theorem modIdx_sub_add (j : Idx) (n : Int) : modIdx ((modIdx (j.val - n)).val + n) = j := by
  apply Fin.ext
  have h1 := modIdx_val (j.val - n)
  have h2 := modIdx_val ((modIdx (j.val - n)).val + n)
  omega

/-- `charToIdx` has a value exactly on letters. -/
theorem charToIdx_eq_none_iff (ch : Byte) : charToIdx ch = none ↔ isLetter ch = false := by
  unfold charToIdx; split <;> simp_all

/-- A letter's index, and the letter again from it. -/
theorem charToIdx_eq_some {ch : Byte} {x : Idx} (h : charToIdx ch = some x) :
    isLetter ch = true ∧ x.val + 0x41 = ch.toNat ∧ idxToChar x = ch := by
  unfold charToIdx at h
  split at h
  · rename_i hl
    have hb : 0x41 ≤ ch.toNat ∧ ch.toNat ≤ 0x5A := by simpa [isLetter] using hl
    have hx : modIdx ((ch.toNat : Int) - 0x41) = x := by simpa using h
    have hv := modIdx_val ((ch.toNat : Int) - 0x41)
    rw [hx] at hv
    have hs : x.val + 0x41 = ch.toNat := by omega
    refine ⟨hl, hs, ?_⟩
    apply BitVec.eq_of_toNat_eq
    simp only [idxToChar, BitVec.toNat_ofNat]
    omega
  · cases h

/-- The character of an index is a letter with that index. -/
@[simp] theorem charToIdx_idxToChar (j : Idx) : charToIdx (idxToChar j) = some j := by
  revert j; decide

/-- The character of an index is a letter. -/
@[simp] theorem isLetter_idxToChar (j : Idx) : isLetter (idxToChar j) = true := by
  revert j; decide

/-- Different indices have different characters. -/
theorem idxToChar_injective {a b : Idx} (h : idxToChar a = idxToChar b) : a = b := by
  have := congrArg charToIdx h
  simpa using this

/-- The character of an index is upper case, so folding leaves it. -/
@[simp] theorem fold_idxToChar (j : Idx) : fold (idxToChar j) = idxToChar j := by
  revert j; decide

/-- A byte that is no letter after folding was left by the fold. -/
theorem fold_of_not_letter {ch : Byte} (h : isLetter (fold ch) = false) : fold ch = ch := by
  unfold fold at h ⊢
  split
  · rename_i hc
    rw [if_pos hc] at h
    have hb : 0x61 ≤ ch.toNat ∧ ch.toNat ≤ 0x7A := by simpa using hc
    have hs : (ch - 0x20#8).toNat = ch.toNat - 0x20 := by
      rw [BitVec.toNat_sub]; simp; omega
    simp [isLetter, hs] at h
    omega
  · rfl

/-- A selector field is accepted exactly when it is 0, 1 or 2. -/
theorem selField_ok_iff (v : Byte) (a : Sel) : selField v = .ok a ↔ a.val = v.toNat := by
  unfold selField zext8
  split
  · constructor
    · intro h; cases h; rfl
    · intro h; congr 1; exact Fin.ext h.symm
  · constructor
    · intro h; cases h
    · intro h; omega

/-- A selector field that is refused is refused with `E_SEL_RANGE`. -/
theorem selField_error {v : Byte} {e : Status} (h : selField v = .error e) : e = .selRange ∧ 2 < v.toNat := by
  unfold selField zext8 at h
  split at h
  · cases h
  · cases h; exact ⟨rfl, by omega⟩

/-- Reading back the entry just written. -/
@[simp] theorem memRead_memWrite_self (t : Table) (j : Idx) (v : Letter) : memRead (memWrite t j v) j = v := by
  simp [memRead, memWrite]

/-- A write leaves every other entry. -/
theorem memRead_memWrite_other (t : Table) {j k : Idx} (v : Letter) (h : k ≠ j) :
    memRead (memWrite t j v) k = memRead t k := by
  have : j.val ≠ k.val := fun e => h (Fin.ext e.symm)
  simp [memRead, memWrite, this]

/-- What one pair does to one entry. -/
theorem memRead_plugPair (t : Table) (p : Idx × Idx) (c : Letter) :
    memRead (plugPair t p) c = if c = p.2 then p.1 else if c = p.1 then p.2 else memRead t c := by
  unfold plugPair
  by_cases h2 : c = p.2
  · subst h2; simp
  · rw [if_neg h2, memRead_memWrite_other _ _ h2]
    by_cases h1 : c = p.1
    · subst h1; simp
    · rw [if_neg h1, memRead_memWrite_other _ _ h1]

/-- In the identity table every letter is its own image. -/
@[simp] theorem memRead_identityTable (c : Letter) : memRead identityTable c = c := by
  simp [memRead, identityTable]

end Sys2Proof.Machine
end

