-- ==== Sys2Proof/Laws/State.lean ====
section
/-! SUPPORT. One lemma per field per update of the state, true by rfl, so that no proof unfolds a record update. -/
namespace Sys2Proof.Machine

@[simp] theorem State.respond_sel (s : State) (st : Status) (ch : Byte) : (s.respond st ch).sel = s.sel := rfl
@[simp] theorem State.respond_ring (s : State) (st : Status) (ch : Byte) : (s.respond st ch).ring = s.ring := rfl
@[simp] theorem State.respond_pos (s : State) (st : Status) (ch : Byte) : (s.respond st ch).pos = s.pos := rfl
@[simp] theorem State.respond_plug (s : State) (st : Status) (ch : Byte) : (s.respond st ch).plug = s.plug := rfl
@[simp] theorem State.respond_configured (s : State) (st : Status) (ch : Byte) : (s.respond st ch).configured = s.configured := rfl
@[simp] theorem State.respond_chan (s : State) (st : Status) (ch : Byte) : (s.respond st ch).chan = .answered ⟨ch, st⟩ := rfl
@[simp] theorem State.respond_par (s : State) (st : Status) (ch : Byte) : (s.respond st ch).par = s.par := rfl
@[simp] theorem State.respond_host (s : State) (st : Status) (ch : Byte) : (s.respond st ch).host = s.host := rfl
@[simp] theorem State.respond_received (s : State) (st : Status) (ch : Byte) : (s.respond st ch).received = s.received := rfl
@[simp] theorem State.respond_free (s : State) (st : Status) (ch : Byte) : (s.respond st ch).free = s.free := rfl

@[simp] theorem State.raise_sel (s : State) (st : Status) : (s.raise st).sel = s.sel := rfl
@[simp] theorem State.raise_ring (s : State) (st : Status) : (s.raise st).ring = s.ring := rfl
@[simp] theorem State.raise_pos (s : State) (st : Status) : (s.raise st).pos = s.pos := rfl
@[simp] theorem State.raise_plug (s : State) (st : Status) : (s.raise st).plug = s.plug := rfl
@[simp] theorem State.raise_configured (s : State) (st : Status) : (s.raise st).configured = s.configured := rfl
@[simp] theorem State.raise_chan (s : State) (st : Status) : (s.raise st).chan = .answered ⟨0x00, st⟩ := rfl
@[simp] theorem State.raise_par (s : State) (st : Status) : (s.raise st).par = s.par := rfl
@[simp] theorem State.raise_host (s : State) (st : Status) : (s.raise st).host = s.host := rfl
@[simp] theorem State.raise_received (s : State) (st : Status) : (s.raise st).received = s.received := rfl
@[simp] theorem State.raise_free (s : State) (st : Status) : (s.raise st).free = s.free := rfl

@[simp] theorem State.setPos_sel (s : State) (i : Slot) (v : Idx) : (s.setPos i v).sel = s.sel := rfl
@[simp] theorem State.setPos_ring (s : State) (i : Slot) (v : Idx) : (s.setPos i v).ring = s.ring := rfl
@[simp] theorem State.setPos_pos (s : State) (i : Slot) (v : Idx) : (s.setPos i v).pos = s.pos.set i v := rfl
@[simp] theorem State.setPos_plug (s : State) (i : Slot) (v : Idx) : (s.setPos i v).plug = s.plug := rfl
@[simp] theorem State.setPos_configured (s : State) (i : Slot) (v : Idx) : (s.setPos i v).configured = s.configured := rfl
@[simp] theorem State.setPos_chan (s : State) (i : Slot) (v : Idx) : (s.setPos i v).chan = s.chan := rfl
@[simp] theorem State.setPos_par (s : State) (i : Slot) (v : Idx) : (s.setPos i v).par = s.par := rfl
@[simp] theorem State.setPos_host (s : State) (i : Slot) (v : Idx) : (s.setPos i v).host = s.host := rfl
@[simp] theorem State.setPos_received (s : State) (i : Slot) (v : Idx) : (s.setPos i v).received = s.received := rfl
@[simp] theorem State.setPos_free (s : State) (i : Slot) (v : Idx) : (s.setPos i v).free = s.free := rfl

@[simp] theorem State.stepSlot_sel (s : State) (i : Slot) : (s.stepSlot i).sel = s.sel := rfl
@[simp] theorem State.stepSlot_ring (s : State) (i : Slot) : (s.stepSlot i).ring = s.ring := rfl
@[simp] theorem State.stepSlot_pos (s : State) (i : Slot) : (s.stepSlot i).pos = s.pos.set i (modIdx (s.pos[i].val + 1)) := rfl
@[simp] theorem State.stepSlot_plug (s : State) (i : Slot) : (s.stepSlot i).plug = s.plug := rfl
@[simp] theorem State.stepSlot_configured (s : State) (i : Slot) : (s.stepSlot i).configured = s.configured := rfl
@[simp] theorem State.stepSlot_chan (s : State) (i : Slot) : (s.stepSlot i).chan = s.chan := rfl
@[simp] theorem State.stepSlot_par (s : State) (i : Slot) : (s.stepSlot i).par = s.par := rfl
@[simp] theorem State.stepSlot_host (s : State) (i : Slot) : (s.stepSlot i).host = s.host := rfl
@[simp] theorem State.stepSlot_received (s : State) (i : Slot) : (s.stepSlot i).received = s.received := rfl
@[simp] theorem State.stepSlot_free (s : State) (i : Slot) : (s.stepSlot i).free = s.free := rfl

@[simp] theorem State.unspecify_sel (s : State) : (s.unspecify).sel = Config.freeSel s.free := rfl
@[simp] theorem State.unspecify_ring (s : State) : (s.unspecify).ring = Config.freeRing s.free := rfl
@[simp] theorem State.unspecify_pos (s : State) : (s.unspecify).pos = Config.freePos s.free := rfl
@[simp] theorem State.unspecify_plug (s : State) : (s.unspecify).plug = Config.freePlug s.free := rfl
@[simp] theorem State.unspecify_configured (s : State) : (s.unspecify).configured = false := rfl
@[simp] theorem State.unspecify_chan (s : State) : (s.unspecify).chan = s.chan := rfl
@[simp] theorem State.unspecify_par (s : State) : (s.unspecify).par = s.par := rfl
@[simp] theorem State.unspecify_host (s : State) : (s.unspecify).host = s.host := rfl
@[simp] theorem State.unspecify_received (s : State) : (s.unspecify).received = s.received := rfl
@[simp] theorem State.unspecify_free (s : State) : (s.unspecify).free = s.free + 1 := rfl

@[simp] theorem State.failLoad_sel (s : State) (st : Status) : (s.failLoad st).sel = Config.freeSel s.free := rfl
@[simp] theorem State.failLoad_ring (s : State) (st : Status) : (s.failLoad st).ring = Config.freeRing s.free := rfl
@[simp] theorem State.failLoad_pos (s : State) (st : Status) : (s.failLoad st).pos = Config.freePos s.free := rfl
@[simp] theorem State.failLoad_plug (s : State) (st : Status) : (s.failLoad st).plug = Config.freePlug s.free := rfl
@[simp] theorem State.failLoad_configured (s : State) (st : Status) : (s.failLoad st).configured = false := rfl
@[simp] theorem State.failLoad_chan (s : State) (st : Status) : (s.failLoad st).chan = .answered ⟨0x00, st⟩ := rfl
@[simp] theorem State.failLoad_par (s : State) (st : Status) : (s.failLoad st).par = s.par := rfl
@[simp] theorem State.failLoad_host (s : State) (st : Status) : (s.failLoad st).host = s.host := rfl
@[simp] theorem State.failLoad_received (s : State) (st : Status) : (s.failLoad st).received = s.received := rfl
@[simp] theorem State.failLoad_free (s : State) (st : Status) : (s.failLoad st).free = s.free + 1 := rfl

@[simp] theorem State.rstEvent_sel (s : State) : (s.rstEvent).sel = Config.freeSel s.free := rfl
@[simp] theorem State.rstEvent_ring (s : State) : (s.rstEvent).ring = Config.freeRing s.free := rfl
@[simp] theorem State.rstEvent_pos (s : State) : (s.rstEvent).pos = Config.freePos s.free := rfl
@[simp] theorem State.rstEvent_plug (s : State) : (s.rstEvent).plug = Config.freePlug s.free := rfl
@[simp] theorem State.rstEvent_configured (s : State) : (s.rstEvent).configured = false := rfl
@[simp] theorem State.rstEvent_chan (s : State) : (s.rstEvent).chan = .idle := rfl
@[simp] theorem State.rstEvent_par (s : State) : (s.rstEvent).par = s.par := rfl
@[simp] theorem State.rstEvent_host (s : State) : (s.rstEvent).host = s.host := rfl
@[simp] theorem State.rstEvent_received (s : State) : (s.rstEvent).received = s.received := rfl
@[simp] theorem State.rstEvent_free (s : State) : (s.rstEvent).free = s.free + 1 := rfl

@[simp] theorem State.commit_sel (s : State) (c : Cfg) (sel : Vector Sel 3) (ps : List (Idx × Idx)) : (s.commit c sel ps).sel = sel := rfl
@[simp] theorem State.commit_ring (s : State) (c : Cfg) (sel : Vector Sel 3) (ps : List (Idx × Idx)) : (s.commit c sel ps).ring = Vector.ofFn fun i => normField c.ring[i] := rfl
@[simp] theorem State.commit_pos (s : State) (c : Cfg) (sel : Vector Sel 3) (ps : List (Idx × Idx)) : (s.commit c sel ps).pos = Vector.ofFn fun i => normField c.pos[i] := rfl
@[simp] theorem State.commit_plug (s : State) (c : Cfg) (sel : Vector Sel 3) (ps : List (Idx × Idx)) : (s.commit c sel ps).plug = buildPlug ps := rfl
@[simp] theorem State.commit_configured (s : State) (c : Cfg) (sel : Vector Sel 3) (ps : List (Idx × Idx)) : (s.commit c sel ps).configured = true := rfl
@[simp] theorem State.commit_chan (s : State) (c : Cfg) (sel : Vector Sel 3) (ps : List (Idx × Idx)) : (s.commit c sel ps).chan = s.chan := rfl
@[simp] theorem State.commit_par (s : State) (c : Cfg) (sel : Vector Sel 3) (ps : List (Idx × Idx)) : (s.commit c sel ps).par = s.par := rfl
@[simp] theorem State.commit_host (s : State) (c : Cfg) (sel : Vector Sel 3) (ps : List (Idx × Idx)) : (s.commit c sel ps).host = s.host := rfl
@[simp] theorem State.commit_received (s : State) (c : Cfg) (sel : Vector Sel 3) (ps : List (Idx × Idx)) : (s.commit c sel ps).received = s.received := rfl
@[simp] theorem State.commit_free (s : State) (c : Cfg) (sel : Vector Sel 3) (ps : List (Idx × Idx)) : (s.commit c sel ps).free = s.free := rfl

@[simp] theorem State.stepIf_sel (s : State) (b : Bool) (i : Slot) : (s.stepIf b i).sel = s.sel := by cases b <;> rfl
@[simp] theorem State.stepIf_ring (s : State) (b : Bool) (i : Slot) : (s.stepIf b i).ring = s.ring := by cases b <;> rfl
@[simp] theorem State.stepIf_plug (s : State) (b : Bool) (i : Slot) : (s.stepIf b i).plug = s.plug := by cases b <;> rfl
@[simp] theorem State.stepIf_configured (s : State) (b : Bool) (i : Slot) : (s.stepIf b i).configured = s.configured := by cases b <;> rfl
@[simp] theorem State.stepIf_chan (s : State) (b : Bool) (i : Slot) : (s.stepIf b i).chan = s.chan := by cases b <;> rfl
@[simp] theorem State.stepIf_par (s : State) (b : Bool) (i : Slot) : (s.stepIf b i).par = s.par := by cases b <;> rfl
@[simp] theorem State.stepIf_host (s : State) (b : Bool) (i : Slot) : (s.stepIf b i).host = s.host := by cases b <;> rfl
@[simp] theorem State.stepIf_received (s : State) (b : Bool) (i : Slot) : (s.stepIf b i).received = s.received := by cases b <;> rfl
@[simp] theorem State.stepIf_free (s : State) (b : Bool) (i : Slot) : (s.stepIf b i).free = s.free := by cases b <;> rfl
@[simp] theorem State.stepIf_pos (s : State) (b : Bool) (i : Slot) :
    (s.stepIf b i).pos = if b then s.pos.set i (modIdx (s.pos[i].val + 1)) else s.pos := by cases b <;> rfl

@[simp] theorem State.stepRotors_sel (s : State) : s.stepRotors.sel = s.sel := by
  unfold State.stepRotors; split <;> simp
@[simp] theorem State.stepRotors_ring (s : State) : s.stepRotors.ring = s.ring := by
  unfold State.stepRotors; split <;> simp
@[simp] theorem State.stepRotors_plug (s : State) : s.stepRotors.plug = s.plug := by
  unfold State.stepRotors; split <;> simp
@[simp] theorem State.stepRotors_configured (s : State) : s.stepRotors.configured = s.configured := by
  unfold State.stepRotors; split <;> simp
@[simp] theorem State.stepRotors_chan (s : State) : s.stepRotors.chan = s.chan := by
  unfold State.stepRotors; split <;> simp
@[simp] theorem State.stepRotors_par (s : State) : s.stepRotors.par = s.par := by
  unfold State.stepRotors; split <;> simp
@[simp] theorem State.stepRotors_host (s : State) : s.stepRotors.host = s.host := by
  unfold State.stepRotors; split <;> simp
@[simp] theorem State.stepRotors_received (s : State) : s.stepRotors.received = s.received := by
  unfold State.stepRotors; split <;> simp
@[simp] theorem State.stepRotors_free (s : State) : s.stepRotors.free = s.free := by
  unfold State.stepRotors; split <;> simp

@[simp] theorem State.keypress_sel (s : State) (x : Letter) : (s.keypress x).sel = s.sel := by
  simp [State.keypress]
@[simp] theorem State.keypress_ring (s : State) (x : Letter) : (s.keypress x).ring = s.ring := by
  simp [State.keypress]
@[simp] theorem State.keypress_pos (s : State) (x : Letter) : (s.keypress x).pos = s.stepRotors.pos := by
  simp [State.keypress]
@[simp] theorem State.keypress_plug (s : State) (x : Letter) : (s.keypress x).plug = s.plug := by
  simp [State.keypress]
@[simp] theorem State.keypress_configured (s : State) (x : Letter) : (s.keypress x).configured = s.configured := by
  simp [State.keypress]
@[simp] theorem State.keypress_chan (s : State) (x : Letter) : (s.keypress x).chan = .answered ⟨idxToChar (s.stepRotors.subst x), .ok⟩ := by
  simp [State.keypress]
@[simp] theorem State.keypress_par (s : State) (x : Letter) : (s.keypress x).par = s.par := by
  simp [State.keypress]
@[simp] theorem State.keypress_host (s : State) (x : Letter) : (s.keypress x).host = s.host := by
  simp [State.keypress]
@[simp] theorem State.keypress_received (s : State) (x : Letter) : (s.keypress x).received = s.received := by
  simp [State.keypress]
@[simp] theorem State.keypress_free (s : State) (x : Letter) : (s.keypress x).free = s.free := by
  simp [State.keypress]

/-- Two states with equal fields are equal. -/
theorem State.ext_fields {s t : State} (h1 : s.sel = t.sel) (h2 : s.ring = t.ring) (h3 : s.pos = t.pos) (h4 : s.plug = t.plug)
    (h5 : s.configured = t.configured) (h6 : s.chan = t.chan) (h7 : s.par = t.par) (h8 : s.host = t.host)
    (h9 : s.received = t.received) (h10 : s.free = t.free) : s = t := by
  cases s; cases t; simp_all

end Sys2Proof.Machine
end

