-- ==== Sys2Proof/Laws/Datapath.lean ====
section
/-! SUPPORT. What a command can do, said once: the cases of `validate`, of each meaning and of `exec`. -/
namespace Sys2Proof.Machine

/-- The validated selectors are the three fields; a failure is `E_SEL_RANGE` and some field is over 2. -/
theorem selFields_cases (v : Vector Byte 3) :
    (∃ sel, selFields v = .ok sel ∧ ∀ i : Slot, sel[i].val = v[i].toNat) ∨
    (selFields v = .error .selRange ∧ ∃ i : Slot, 2 < v[i].toNat) := by
  unfold selFields
  split
  · rename_i a b c h0 h1 h2
    refine .inl ⟨_, rfl, ?_⟩
    have e0 := (selField_ok_iff _ _).1 h0
    have e1 := (selField_ok_iff _ _).1 h1
    have e2 := (selField_ok_iff _ _).1 h2
    intro i
    match i with
    | 0 => exact e0
    | 1 => exact e1
    | 2 => exact e2
  · rename_i e h; obtain ⟨rfl, hv⟩ := selField_error h; exact .inr ⟨rfl, 0, hv⟩
  · rename_i e h _; obtain ⟨rfl, hv⟩ := selField_error h; exact .inr ⟨rfl, 1, hv⟩
  · rename_i e h _ _; obtain ⟨rfl, hv⟩ := selField_error h; exact .inr ⟨rfl, 2, hv⟩

/-- The status of a failed pair check is one of the three. -/
theorem checkPairs_error {used : List Idx} {raw : List (Byte × Byte)} {e : Status} (h : checkPairs used raw = .error e) :
    e = .plugNonletter ∨ e = .plugSelf ∨ e = .plugReuse := by
  induction raw generalizing used with
  | nil => simp [checkPairs] at h
  | cons q rest ih =>
    obtain ⟨pa, pb⟩ := q
    unfold checkPairs at h
    split at h
    · split at h
      · cases h; simp
      · split at h
        · cases h; simp
        · split at h
          · cases h
          · rename_i e' h'; cases h; exact ih h'
    · cases h; simp

/-- What `validate` can answer. -/
theorem validate_cases (c : Cfg) :
    (∃ sel ps, validate c = .ok (sel, ps) ∧ selFields c.sel = .ok sel ∧ c.npairs.toNat ≤ 13 ∧
      checkPairs [] (usedPairs c) = .ok ps) ∨
    (∃ e, validate c = .error e ∧
      (e = .selRange ∨ e = .plugCount ∨ e = .plugNonletter ∨ e = .plugSelf ∨ e = .plugReuse)) := by
  unfold validate
  obtain ⟨sel, h, -⟩ | ⟨h, -⟩ := selFields_cases c.sel
  · rw [h]; dsimp only
    by_cases hn : zext8 c.npairs > 13
    · rw [if_pos hn]; exact .inr ⟨_, rfl, by simp⟩
    · rw [if_neg hn]
      cases hp : checkPairs [] (usedPairs c) with
      | ok ps => exact .inl ⟨sel, ps, rfl, rfl, by simpa [zext8] using hn, rfl⟩
      | error e => exact .inr ⟨e, rfl, by rcases checkPairs_error hp with h | h | h <;> simp [h]⟩
  · rw [h]; exact .inr ⟨_, rfl, by simp⟩

/-- What the shared body of `ENC` and `PROC` can do. -/
theorem encipher_cases (ch : Byte) (s : State) :
    (s.configured = false ∧ encipher ch s = .next (s.raise .notConfigured)) ∨
    (s.configured = true ∧ charToIdx ch = none ∧ encipher ch s = .next (s.respond .ok ch)) ∨
    (∃ x, s.configured = true ∧ charToIdx ch = some x ∧ encipher ch s = .next (s.keypress x)) := by
  unfold encipher
  cases hc : s.configured
  · exact .inl ⟨rfl, rfl⟩
  · cases hx : charToIdx ch
    · exact .inr (.inl ⟨rfl, rfl, rfl⟩)
    · exact .inr (.inr ⟨_, rfl, rfl, rfl⟩)

/-- What a `LOAD` can do. -/
theorem execLoad_cases (c : Cfg) (s : State) :
    (∃ sel ps, validate c = .ok (sel, ps) ∧ execLoad c s = .next ((s.commit c sel ps).respond .ok 0x00)) ∨
    (∃ e, validate c = .error e ∧ execLoad c s = .next (s.failLoad e)) := by
  unfold execLoad
  split
  · rename_i st h; exact .inr ⟨st, h, rfl⟩
  · rename_i sel ps h; exact .inl ⟨sel, ps, h, rfl⟩

/-- The meanings behind `exec`. -/
@[simp] theorem exec_nop (s : State) : exec .nop s = .next (s.respond .ok 0x00) := rfl
@[simp] theorem exec_load (c : Cfg) (s : State) : exec (.load c) s = execLoad c s := rfl
@[simp] theorem exec_enc (ch : Byte) (s : State) : exec (.enc ch) s = encipher ch s := rfl
@[simp] theorem exec_proc (ch : Byte) (s : State) : exec (.proc ch) s = encipher (fold ch) s := rfl

end Sys2Proof.Machine
end

