-- ==== Sys2Proof/Laws/Packet.lean ====
section
/-! SUPPORT. The bytes of a packet: what `byteAt` reads of a packet built from bytes. -/
namespace Sys2Proof

/-- Byte k of a packet built from bytes is the k-th of them, or zero past their end. -/
theorem byteAt_packetOfBytes (bs : List Byte) (k : Nat) (hk : k < 38) :
    byteAt (packetOfBytes bs) k = bs.getD k 0 := by
  induction bs generalizing k with
  | nil => simp [packetOfBytes, byteAt]
  | cons b bs ih =>
    cases k with
    | zero =>
      apply BitVec.eq_of_getLsbD_eq
      intro i hi
      simp [packetOfBytes, byteAt, hi]
      omega
    | succ k =>
      have := ih k (by omega)
      rw [List.getD_cons_succ, ← this]
      apply BitVec.eq_of_getLsbD_eq
      intro i hi
      have e : 8 * (k + 1) + i - 8 = 8 * k + i := by omega
      have hn : ¬ (8 * (k + 1) + i < 8) := by omega
      simp [packetOfBytes, byteAt, hi, e, hn, BitVec.getLsbD_of_ge b (8 * (k + 1) + i) (by omega)]
      omega

/-- The opcode byte of a canonical packet. -/
theorem byteAt_encode_zero (i : Instr) : byteAt (encode i) 0 = opcode i := by
  unfold encode
  rw [byteAt_packetOfBytes _ _ (by omega)]
  cases i <;> rfl

end Sys2Proof
end

