-- ==== Sys2Proof/Laws/PerInstr.lean ====
section
/-! SUPPORT. Statements about every command, one lemma per constructor. -/
namespace Sys2Proof.Laws

/-- Byte 0 of the canonical packet is the command's opcode (30_encoding.md R64). -/
def OpcodeByte.Statement (i : Instr) : Prop := byteAt (encode i) 0 = opcode i

theorem OpcodeByte.nop : OpcodeByte.Statement .nop := byteAt_encode_zero _
theorem OpcodeByte.load (cfg : Cfg) : OpcodeByte.Statement (.load cfg) := byteAt_encode_zero _
theorem OpcodeByte.enc (ch : Byte) : OpcodeByte.Statement (.enc ch) := byteAt_encode_zero _
theorem OpcodeByte.proc (ch : Byte) : OpcodeByte.Statement (.proc ch) := byteAt_encode_zero _

end Sys2Proof.Laws
end

