-- ==== Sys2Proof/Laws/WellFormed.lean ====
section
/-! SUPPORT. The well-formedness checks as propositions. -/
namespace Sys2Proof

/-- When `LOAD` ignores a pair slot. -/
theorem Cfg.ignoresPair_iff (n : Byte) (k : Nat) : Cfg.ignoresPair n k = true ↔ n.toNat ≤ 13 ∧ n.toNat ≤ k := by
  unfold Cfg.ignoresPair
  rw [Bool.and_eq_true]
  exact and_congr ⟨of_decide_eq_true, decide_eq_true⟩ ⟨of_decide_eq_true, decide_eq_true⟩

/-- A record is canonical when its ignored pair slots are zero. -/
theorem Cfg.wellFormed_iff (c : Cfg) :
    c.wellFormed = true ↔ ∀ k : Fin 13, c.npairs.toNat ≤ 13 → c.npairs.toNat ≤ k.val → c.pairs[k] = (0, 0) := by
  constructor
  · intro h k h1 h2
    exact of_decide_eq_true h k ((Cfg.ignoresPair_iff _ _).2 ⟨h1, h2⟩)
  · intro h
    apply decide_eq_true
    intro k hk
    obtain ⟨h1, h2⟩ := (Cfg.ignoresPair_iff _ _).1 hk
    exact h k h1 h2

/-- What well-formed parameters give. -/
theorem Params.wellFormed_iff (p : Params) :
    p.wellFormed = true ↔
      (∀ (k : Sel) (j : Idx), p.cat[k].wiringInv[p.cat[k].wiring[j]] = j ∧ p.cat[k].wiring[p.cat[k].wiringInv[j]] = j) ∧
      ∀ j : Idx, p.refl[p.refl[j]] = j ∧ p.refl[j] ≠ j := by
  unfold Params.wellFormed reflWellFormed
  rw [Bool.and_eq_true]
  constructor
  · rintro ⟨h1, h2⟩
    exact ⟨fun k j => of_decide_eq_true (of_decide_eq_true h1 k) j, fun j => of_decide_eq_true h2 j⟩
  · rintro ⟨h1, h2⟩
    exact ⟨decide_eq_true fun k => decide_eq_true fun j => h1 k j, decide_eq_true fun j => h2 j⟩

end Sys2Proof
end

