-- ==== Sys2Proof/Laws/Rotor.lean ====
section
/-! SUPPORT. The rotor, the reflector and the stepper in the form proofs use: forward and backward as one expression over
`memRead`, the inverse tables, and the positions after one run of the stepper. -/
namespace Sys2Proof.Machine

/-- `forward` in one expression (R94). -/
theorem State.forward_eq (s : State) (i : Slot) (c : Letter) :
    s.forward i c = modIdx ((memRead (s.wiring i) (modIdx (c.val + s.shift i))).val - s.shift i) := rfl

/-- `backward` in one expression (R95). -/
theorem State.backward_eq (s : State) (i : Slot) (c : Letter) :
    s.backward i c = modIdx ((memRead (s.wiringInv i) (modIdx (c.val + s.shift i))).val - s.shift i) := rfl

/-- The inverse wiring undoes the wiring. -/
theorem State.wiringInv_wiring {s : State} (h : s.par.wellFormed = true) (i : Slot) (j : Idx) :
    memRead (s.wiringInv i) (memRead (s.wiring i) j) = j :=
  (((Params.wellFormed_iff _).1 h).1 (s.sel[i]) j).1

/-- The wiring undoes the inverse wiring. -/
theorem State.wiring_wiringInv {s : State} (h : s.par.wellFormed = true) (i : Slot) (j : Idx) :
    memRead (s.wiring i) (memRead (s.wiringInv i) j) = j :=
  (((Params.wellFormed_iff _).1 h).1 (s.sel[i]) j).2

/-- The notch of a slot depends on the parameters and the selectors. -/
theorem State.notch_congr {s t : State} (hp : s.par = t.par) (hs : s.sel = t.sel) (i : Slot) : s.notch i = t.notch i := by
  simp only [State.notch, hp, hs]

/-- Stepping one slot when a condition holds, as a number added to its position. -/
theorem State.stepIf_pos_val (s : State) (b : Bool) (i j : Slot) :
    (s.stepIf b i).pos[j].val = if i = j then (s.pos[j].val + if b then 1 else 0) % 26 else s.pos[j].val := by
  have hj := s.pos[j].2
  cases b
  · simp only [State.stepIf_pos, Bool.false_eq_true, if_false]
    split <;> omega
  · simp only [State.stepIf_pos, if_true, Fin.getElem_fin, Vector.getElem_set]
    by_cases h : i = j
    · subst h
      have hv := modIdx_val ((s.pos[i].val : Int) + 1)
      simp only [Fin.getElem_fin] at hv ⊢
      simp only [if_true]
      omega
    · have hv : i.val ≠ j.val := fun e => h (Fin.ext e)
      simp [h, hv]

/-- Stepping a slot is stepping it under a true condition. -/
theorem State.stepSlot_eq_stepIf (s : State) (i : Slot) : s.stepSlot i = s.stepIf true i := rfl

end Sys2Proof.Machine
end

