-- ==== Sys2Proof/Laws/Step.lean ====
section
/-! SUPPORT. What one step can do, said once. -/
namespace Sys2Proof.Machine

/-- What executing one accepted packet can do. -/
theorem runPacket_cases (p : Packet) (s : State) :
    (∃ i, decode p = .ok i ∧ runPacket p s = exec i s) ∨
    (∃ e, decode p = .error e ∧ runPacket p s = .next (s.raise .illegalOp)) := by
  unfold runPacket
  split
  · rename_i i h; exact .inl ⟨i, h, rfl⟩
  · rename_i e h; exact .inr ⟨e, h, rfl⟩

/-- The five things a step can be: a reset, the execution of the command in flight (a pause of the host passed over), the
acceptance of a packet, the taking of a response, or waiting (a pause passed over). -/
theorem step_cases (s : State) :
    (∃ rest, s.host = .rst :: rest ∧ step s = .next { s.rstEvent with host := rest }) ∨
    (∃ p l, s.chan = .inFlight p ∧ s.host.head? ≠ some .rst ∧ (l = s.host ∧ s.host.head? ≠ some .pause ∨ s.host = .pause :: l) ∧
      step s = runPacket p { s with host := l }) ∨
    (∃ p rest, s.chan = .idle ∧ s.host = .issue p :: rest ∧
      step s = .next { s with chan := .inFlight p, host := rest }) ∨
    (∃ r rest, s.chan = .answered r ∧ s.host = .take :: rest ∧
      step s = .next { s with chan := .idle, received := s.received ++ [r], host := rest }) ∨
    (∃ l, (∀ p, s.chan ≠ .inFlight p) ∧ s.host.head? ≠ some .rst ∧ (l = s.host ∧ s.host.head? ≠ some .pause ∨ s.host = .pause :: l) ∧
      step s = .next { s with host := l }) := by
  unfold step hostStep
  cases hh : s.host with
  | nil =>
    cases hc : s.chan with
    | inFlight p =>
      refine .inr (.inl ⟨p, [], rfl, by simp, .inl ⟨rfl, by simp⟩, ?_⟩)
      cases s; simp_all [engineStep]
    | idle => exact .inr (.inr (.inr (.inr ⟨[], by simp, by simp, .inl ⟨rfl, by simp⟩, by cases s; simp_all [engineStep]⟩)))
    | answered r => exact .inr (.inr (.inr (.inr ⟨[], by simp, by simp, .inl ⟨rfl, by simp⟩, by cases s; simp_all [engineStep]⟩)))
  | cons a rest =>
    cases a with
    | rst => exact .inl ⟨rest, rfl, rfl⟩
    | pause =>
      cases hc : s.chan with
      | inFlight p => exact .inr (.inl ⟨p, rest, rfl, by simp, .inr rfl, by simp [engineStep]⟩)
      | idle => exact .inr (.inr (.inr (.inr ⟨rest, by simp, by simp, .inr rfl, by simp [engineStep]⟩)))
      | answered r => exact .inr (.inr (.inr (.inr ⟨rest, by simp, by simp, .inr rfl, by simp [engineStep]⟩)))
    | issue q =>
      cases hc : s.chan with
      | inFlight p =>
        refine .inr (.inl ⟨p, _, rfl, by simp, .inl ⟨rfl, by simp⟩, ?_⟩)
        cases s; simp_all [issueStep, engineStep]
      | idle => exact .inr (.inr (.inl ⟨q, rest, rfl, rfl, by simp [issueStep, hc]⟩))
      | answered r =>
        refine .inr (.inr (.inr (.inr ⟨_, by simp, by simp, .inl ⟨rfl, by simp⟩, ?_⟩)))
        cases s; simp_all [issueStep]
    | take =>
      cases hc : s.chan with
      | inFlight p =>
        refine .inr (.inl ⟨p, _, rfl, by simp, .inl ⟨rfl, by simp⟩, ?_⟩)
        cases s; simp_all [takeStep, engineStep]
      | answered r => exact .inr (.inr (.inr (.inl ⟨r, rest, rfl, rfl, by simp [takeStep, hc]⟩)))
      | idle =>
        refine .inr (.inr (.inr (.inr ⟨_, by simp, by simp, .inl ⟨rfl, by simp⟩, ?_⟩)))
        cases s; simp_all [takeStep]

/-- The step of a state with a placed table word executes exactly that word. -/
theorem step_withFetchWord (s : State) (nbits w : Nat) (i : Instr) (h : decodeTableWord nbits w = some i) :
    ∃ l, step (s.withFetchWord nbits w) = exec i { s.withFetchWord nbits w with host := l } := by
  have hd : decode (packetOfTableWord nbits w) = .ok i := by
    unfold decodeTableWord at h
    split at h
    · cases h; assumption
    · cases h
  have hr : (s.withFetchWord nbits w).host.head? ≠ some .rst := by
    show (dropRst s.host).head? ≠ some .rst
    induction s.host with
    | nil => simp [dropRst]
    | cons a l ih => cases a <;> simp [dropRst, ih]
  obtain ⟨rest, h1, -⟩ | ⟨p, l, h1, -, -, h2⟩ | ⟨p, rest, h1, -⟩ | ⟨r, rest, h1, -⟩ | ⟨l, h1, -⟩ :=
    step_cases (s.withFetchWord nbits w)
  · simp [h1] at hr
  · have hp : packetOfTableWord nbits w = p := by simpa [State.withFetchWord] using h1
    subst hp
    refine ⟨l, ?_⟩
    rw [h2, runPacket, hd]
  · simp [State.withFetchWord] at h1
  · simp [State.withFetchWord] at h1
  · exact absurd rfl (h1 _)

end Sys2Proof.Machine
end

