-- ==== Sys2Proof/Laws/Transcript.lean ====
section
/-! SUPPORT. Executing commands one after another: every command is answered, and a transcript taken apart at its first
command. -/
namespace Sys2Proof.Machine

/-- Every command ends in a next state with a response. -/
theorem exec_answers (i : Instr) (s : State) : ∃ t r, exec i s = .next t ∧ t.chan = .answered r := by
  have enc : ∀ ch, ∃ t r, encipher ch s = .next t ∧ t.chan = .answered r := by
    intro ch
    obtain ⟨-, h⟩ | ⟨-, -, h⟩ | ⟨x, -, -, h⟩ := encipher_cases ch s <;> exact ⟨_, _, h, rfl⟩
  cases i with
  | nop => exact ⟨_, _, rfl, rfl⟩
  | load c => obtain ⟨sel, ps, -, h⟩ | ⟨e, -, h⟩ := execLoad_cases c s <;> exact ⟨_, _, h, rfl⟩
  | enc ch => exact enc ch
  | proc ch => exact enc (fold ch)

/-- One command answered: the response `exec` gives, and the state with both channels empty. -/
theorem answer_eq (i : Instr) (s : State) :
    ∃ t r, exec i s = .next t ∧ t.chan = .answered r ∧ answer i s = some (r, { t with chan := .idle }) := by
  obtain ⟨t, r, h1, h2⟩ := exec_answers i s
  exact ⟨t, r, h1, h2, by rw [answer, h1]; simp only [h2]⟩

/-- A transcript always exists and has one response a command. -/
theorem transcript_exists (is : List Instr) (s : State) :
    ∃ rs t, transcript is s = some (rs, t) ∧ rs.length = is.length := by
  induction is generalizing s with
  | nil => exact ⟨_, _, rfl, rfl⟩
  | cons i is ih =>
    obtain ⟨t, r, -, -, h⟩ := answer_eq i s
    obtain ⟨rs, u, h', hl⟩ := ih { t with chan := .idle }
    exact ⟨r :: rs, u, by rw [transcript, h]; simp only [h'], by simp [hl]⟩

/-- A transcript that begins with a command: that command executed, then the rest. -/
theorem transcript_cons {i : Instr} {is : List Instr} {s t : State} {rs : List Response}
    (h : transcript (i :: is) s = some (rs, t)) :
    ∃ r qs u, rs = r :: qs ∧ exec i s = .next u ∧ u.chan = .answered r ∧
      transcript is { u with chan := .idle } = some (qs, t) := by
  obtain ⟨u, r, h2, h3, h1⟩ := answer_eq i s
  obtain ⟨qs, v, h4, -⟩ := transcript_exists is { u with chan := .idle }
  rw [transcript, h1] at h
  simp only [h4] at h
  cases h
  exact ⟨r, qs, u, rfl, h2, h3, h4⟩

end Sys2Proof.Machine
end

