-- ==== Sys2Proof/Laws/Validate.lean ====
section
/-! SUPPORT. `validate` accepts exactly the legal records: the pair checks against the declarative form of Safety.lean. -/
namespace Sys2Proof.Machine

/-- The letters of a list that begins with a pair. -/
@[simp] theorem pairLetters_cons (a b : Idx) (ps : List (Idx × Idx)) :
    pairLetters ((a, b) :: ps) = a :: b :: pairLetters ps := rfl

/-- A valid list that begins with a pair. -/
theorem validPairs_cons (a b : Idx) (ps : List (Idx × Idx)) :
    validPairs ((a, b) :: ps) ↔ a ≠ b ∧ a ∉ pairLetters ps ∧ b ∉ pairLetters ps ∧ validPairs ps := by
  unfold validPairs
  rw [pairLetters_cons, List.nodup_cons, List.nodup_cons, List.mem_cons]
  tauto

/-- Raw pairs that begin with one pair, read as letter pairs. -/
theorem readsAsPairs_cons (q : Byte × Byte) (raw : List (Byte × Byte)) (p : Idx × Idx) (ps : List (Idx × Idx)) :
    readsAsPairs (q :: raw) (p :: ps) ↔
      pairLetter q.1 = some p.1 ∧ pairLetter q.2 = some p.2 ∧ readsAsPairs raw ps := by
  simp [readsAsPairs, and_assoc]

/-- What the pair checks accept: the letter pairs of the raw ones, all letters different and none of them used before. -/
theorem checkPairs_ok {used : List Idx} {raw : List (Byte × Byte)} {ps : List (Idx × Idx)}
    (h : checkPairs used raw = .ok ps) : readsAsPairs raw ps ∧ validPairs ps ∧ ∀ c ∈ pairLetters ps, c ∉ used := by
  induction raw generalizing used ps with
  | nil => simp [checkPairs] at h; subst h; exact ⟨rfl, List.nodup_nil, by simp [pairLetters]⟩
  | cons q rest ih =>
    obtain ⟨pa, pb⟩ := q
    unfold checkPairs at h
    split at h
    · rename_i a b ha hb
      split at h
      · cases h
      · split at h
        · cases h
        · rename_i hab hu
          split at h
          · rename_i ps' h'
            cases h
            obtain ⟨i1, i2, i3⟩ := ih h'
            have ha' : a ∉ pairLetters ps' := fun h => i3 a h (by simp)
            have hb' : b ∉ pairLetters ps' := fun h => i3 b h (by simp)
            refine ⟨(readsAsPairs_cons _ _ _ _).2 ⟨ha, hb, i1⟩, (validPairs_cons _ _ _).2 ⟨hab, ha', hb', i2⟩, ?_⟩
            intro c hc hcu
            simp only [pairLetters_cons, List.mem_cons] at hc
            obtain rfl | rfl | hc := hc
            · exact hu (.inl hcu)
            · exact hu (.inr hcu)
            · exact i3 c hc (by simp [hcu])
          · cases h
    · cases h

/-- The pair checks accept every valid list of letters none of which was used before. -/
theorem checkPairs_of_valid {used : List Idx} {raw : List (Byte × Byte)} {ps : List (Idx × Idx)}
    (h1 : readsAsPairs raw ps) (h2 : validPairs ps) (h3 : ∀ c ∈ pairLetters ps, c ∉ used) :
    checkPairs used raw = .ok ps := by
  induction raw generalizing used ps with
  | nil =>
    cases ps with
    | nil => rfl
    | cons p ps => simp [readsAsPairs] at h1
  | cons q rest ih =>
    cases ps with
    | nil => simp [readsAsPairs] at h1
    | cons p ps =>
      obtain ⟨⟨pa, pb⟩, ⟨a, b⟩⟩ := q, p
      obtain ⟨ha, hb, h1⟩ := (readsAsPairs_cons _ _ _ _).1 h1
      obtain ⟨hab, hna, hnb, h2⟩ := (validPairs_cons _ _ _).1 h2
      have hu : ¬ (a ∈ used ∨ b ∈ used) := by
        rintro (h | h)
        · exact h3 a (by simp) h
        · exact h3 b (by simp) h
      simp only at ha hb
      unfold checkPairs
      rw [ha, hb]; dsimp only
      rw [if_neg hab, if_neg hu, ih h1 h2]
      intro c hc h
      simp only [List.mem_cons] at h
      obtain rfl | rfl | h := h
      · exact hna hc
      · exact hnb hc
      · exact h3 c (by simp [hc]) h

/-- A legal record passes validation with its own pair list and selectors. -/
theorem validate_of_legal {cfg : Cfg} {ps : List (Idx × Idx)} (h : legalRecord cfg ps) :
    ∃ sel, validate cfg = .ok (sel, ps) ∧ ∀ i : Slot, sel[i].val = cfg.sel[i].toNat := by
  obtain ⟨h1, h2, h3, h4⟩ := h
  obtain ⟨sel, e, hs⟩ | ⟨e, i, hi⟩ := selFields_cases cfg.sel
  · refine ⟨sel, ?_, hs⟩
    have hn : ¬ (zext8 cfg.npairs > 13) := by unfold zext8; omega
    rw [validate, e]; dsimp only
    rw [if_neg hn, checkPairs_of_valid h3 h4 (by simp)]
  · have := h1 i; omega

/-- What passes validation is a legal record. -/
theorem legal_of_validate {cfg : Cfg} {sel : Vector Sel 3} {ps : List (Idx × Idx)} (h : validate cfg = .ok (sel, ps)) :
    legalRecord cfg ps := by
  obtain ⟨sel', ps', h1, h2, h3, h4⟩ | ⟨e, h1, -⟩ := validate_cases cfg
  · rw [h1] at h; cases h
    obtain ⟨i1, i2, -⟩ := checkPairs_ok h4
    obtain ⟨sel'', e, hs⟩ | ⟨e, -⟩ := selFields_cases cfg.sel
    · refine ⟨fun i => ?_, h3, i1, i2⟩
      have := hs i; have := sel''[i].2; omega
    · rw [e] at h2; cases h2
  · rw [h1] at h; cases h

end Sys2Proof.Machine
end

