-- ==== Sys2Proof/Tests/Slice0.lean ====
section
/-! SUPPORT. The model's own tests. Expected results are from spec/95_test_vectors.md and the examples of the rules, named at each
test; the witness theorems show that the hypotheses of the obligations can be met. -/
namespace Sys2Proof.Tests
open Sys2Proof.Machine

-- ---------------------------------------------------------------- small states and packets

/-- The configured engine of the baseline `LOAD` of 95_test_vectors.md, at the given positions. -/
def base (pos : Vector Idx 3) : State :=
  { State.reset with sel := #v[0, 1, 2], pos := pos, plug := identityTable, configured := true }

/-- The engine of program P2 (95_test_vectors.md section 3) at the given positions. -/
def p2 (pos : Vector Idx 3) : State :=
  { base pos with sel := #v[2, 0, 1], ring := #v[1, 1, 23], plug := buildPlug [(0, 12), (19, 6)] }

/-- The same engine under the historical stepping rule. -/
def historical (s : State) : State := { s with par := { s.par with stepRule := .historical } }

/-- The record of a `LOAD` packet given by its bytes. -/
def recordOf (bs : List Byte) : Cfg := decodeCfg (packetOfBytes bs)

/-- The record of a `LOAD` packet given as one number. -/
def recordOfWord (w : Nat) : Cfg := decodeCfg (packetOfTableWord 304 w)

/-- The record of the worked example of R124. -/
def cfgP2 : Cfg :=
  recordOf [0x01, 0x00, 0x02, 0x00, 0x01, 0x1E, 0xFF, 0x15, 0x01, 0x1B, 0xFD, 0x02, 0x61, 0x4D, 0x54, 0x67]

/-- A baseline record with this pair count and these pair bytes. -/
def cfgPairs (n : Byte) (bs : List Byte) : Cfg :=
  recordOf ([0x01, 0x00, 0x00, 0x01, 0x02, 0x00, 0x00, 0x00, 0x00, 0x00, 0x00, n] ++ bs)

/-- The state after an outcome; reset when there is none. -/
def after (o : Host.Outcome State Fault Refusal) : State :=
  match o with
  | .next s => s
  | .fault _ => State.reset
  | .refused _ => State.reset

/-- The letters of a table as bytes. -/
def lettersOf (t : Table) : List Byte := t.toList.map idxToChar

-- ---------------------------------------------------------------- well-formedness: an ill-formed term for each check

theorem test_illformed_load_ignored_pair : (Instr.load { cfgPairs 1 [0x41, 0x42] with
    pairs := (cfgPairs 1 [0x41, 0x42]).pairs.set 1 (0x31, 0x31) }).wellFormed = false := by decide
theorem test_illformed_wiring_not_permutation :
    ({ catEntry0 with wiring := catEntry0.wiring.set 1 4 } : CatEntry).wellFormed = false := by decide
theorem test_illformed_wiring_inverse :
    ({ catEntry0 with wiringInv := catEntry1.wiringInv } : CatEntry).wellFormed = false := by decide
theorem test_illformed_reflector_fixed_points : reflWellFormed identityTable = false := by decide
theorem test_illformed_reflector_no_involution : reflWellFormed (Vector.ofFn fun j : Idx => j + 1) = false := by decide
theorem test_illformed_params_reflector : ({ defaultParams with refl := identityTable } : Params).wellFormed = false := by
  decide
theorem test_illformed_params_catalogue :
    ({ defaultParams with cat := defaultParams.cat.set 2 { catEntry2 with wiringInv := catEntry0.wiringInv } } :
      Params).wellFormed = false := by decide

-- ---------------------------------------------------------------- decoding, words written out from R62 and R64

-- byte 0 = 0x00 (95 section 2.9: NOP with ignored bytes set)
theorem test_decode_nop : decodeTableWord 304 0xFFFF4100 = some .nop := by decide
-- byte 0 = 0000_0010, byte 1 = 0100_0001 (R74: `ENC 'A'` is the byte string 02 41)
theorem test_decode_enc : decodeTableWord 304 0b0100000100000010 = some (.enc 0x41) := by decide
-- byte 0 = 0000_0011, byte 1 = 0010_1100 (95 section 2.9: `PROC ','`)
theorem test_decode_proc : decodeTableWord 304 0b0010110000000011 = some (.proc 0x2C) := by decide
-- bytes 0 to 15 of 95 section 2.8's fourth packet, byte 15 leftmost
theorem test_decode_load : decodeTableWord 304 0x67544D6102FD1B0115FF1E0100020001 =
    some (.load { sel := #v[2, 0, 1], pos := #v[0x1E, 0xFF, 0x15], ring := #v[0x01, 0x1B, 0xFD], npairs := 2,
                  pairs := (Vector.replicate 13 (0, 0)).set 0 (0x61, 0x4D) |>.set 1 (0x54, 0x67) }) := by decide
-- byte 0 = 0x04 and 0xFF (95 section 2.9)
theorem test_decode_illegal : decodeTableWord 304 0x4104 = none ∧ decodeTableWord 304 0xFF = none := by decide
-- R62: PA[12] is byte 36 and PB[12] byte 37, the top of the packet; NPAIRS = 13 is byte 11
theorem test_decode_last_pair : (recordOfWord 0x5A590000000000000000000000000000000000000000000000000D0000000000000000000001).pairs[12] = (0x59, 0x5A) := by decide
-- 95 section 2.8: NPAIRS = 1, the second pair's bytes are ignored
theorem test_decode_drops_ignored_pair : cfgPairs 1 [0x41, 0x42, 0x31, 0x31] = cfgPairs 1 [0x41, 0x42] := by decide
-- 30_encoding.md R70: response B with status OK is the packet with bytes 42 00, an illegal opcode 00 01
theorem test_response_packets :
    (Response.mk 0x42 .ok).packet = 0x0042 ∧ (Response.mk 0x00 .illegalOp).packet = 0x0100 := by decide
-- R74's syntax on 95's program P2
theorem test_assemble_load :
    assemble "LOAD sel=2,0,1 pos=30,-1,21 ring=1,27,-3 plug=aM,Tg" = some [.load cfgP2] := by decide
-- R74: item k gives PA[k] then PB[k], whatever the two characters, and `;` starts a comment
theorem test_assemble_quote_in_pair :
    assemble "LOAD sel=0,1,2 pos=0,0,0 ring=0,0,0 plug='A,B\" ; it's" =
      some [.load (cfgWith #v[0, 1, 2] #v[0, 0, 0] #v[0, 0, 0] 2 [(0x27, 0x41), (0x42, 0x22)])] := by decide
theorem test_assemble_lines : assembleAll ["NOP ; nothing", "ENC ';'", "PROC 0xE9", "PROCS \"a,\""] =
    some [.nop, .enc 0x3B, .proc 0xE9, .proc 0x61, .proc 0x2C] := by decide

-- ---------------------------------------------------------------- tables and functions

-- the strings of R7, R95, R98 and R107
theorem test_table_entry0 : lettersOf catEntry0.wiring = bytesOf "EKMFLGDQVZNTOWYHXUSPAIBRCJ" ∧
    lettersOf catEntry0.wiringInv = bytesOf "UWYGADFPVZBECKMTHXSLRINQOJ" := by decide
theorem test_table_entry1 : lettersOf catEntry1.wiring = bytesOf "AJDKSIRUXBLHWTMCQGZNPYFVOE" ∧
    lettersOf catEntry1.wiringInv = bytesOf "AJPCZWRLFBDKOTYUQGENHXMIVS" := by decide
theorem test_table_entry2 : lettersOf catEntry2.wiring = bytesOf "BDFHJLCPRTXVZNYEIWGAKMUSQO" ∧
    lettersOf catEntry2.wiringInv = bytesOf "TAGBPCSDQEUFVNZHYIXJWLRKOM" := by decide
theorem test_table_reflector : lettersOf reflTable = bytesOf "YRUHQSLDPXNGOKMIEBFZCWVJAT" := by decide
-- 95 section 2.1
theorem test_mod : [0, 25, 26, 30, 51, 127, -1, -25, -26, -27, -128].map (fun n => mod n 26) =
    [0, 25, 0, 4, 25, 23, 25, 1, 0, 25, 2] := by decide
-- 95 section 2.2
theorem test_fold : [0x60, 0x61, 0x7A, 0x7B, 0x41, 0xE9, 0xFF].map fold = [0x60, 0x41, 0x5A, 0x7B, 0x41, 0xE9, 0xFF] := by
  decide
theorem test_isLetter : [0x40, 0x41, 0x5A, 0x5B, 0x61, 0xC1].map isLetter = [false, true, true, false, false, false] := by
  decide
-- 95 section 2.3, catalogue entry 0, POS 25, RING 3 and POS 3, RING 25
theorem test_forward_row : (List.finRange 26).map (fun c => idxToChar
    (State.forward { base #v[25, 0, 0] with ring := #v[3, 0, 0] } 0 c)) = bytesOf "FVGNIOQJPKHUZDRXSACLBYWTEM" := by decide
theorem test_backward_row : (List.finRange 26).map (fun c => idxToChar
    (State.backward { base #v[3, 0, 0] with ring := #v[25, 0, 0] } 0 c)) = bytesOf "WZBLRVXAYGIPDTOHNEJMKFQSUC" := by decide
-- 95 section 2.4
theorem test_plug_table : lettersOf (buildPlug [(0, 12), (19, 6)]) = bytesOf "MBCDEFTHIJKLANOPQRSGUVWXYZ" := by decide
-- 95 section 2.6, both stepping rules: rows (0,3,21), (0,4,20), (25,4,21), (16,0,0)
theorem test_stepper_numbered : [#v[0, 3, 21], #v[0, 4, 20], #v[25, 4, 21], #v[16, 0, 0]].map
    (fun p => (base p).stepRotors.pos) = [#v[1, 4, 22], #v[1, 4, 21], #v[0, 5, 22], #v[16, 0, 1]] := by decide
theorem test_stepper_historical : [#v[0, 3, 21], #v[0, 4, 20], #v[25, 4, 21], #v[16, 0, 0]].map
    (fun p => (historical (base p)).stepRotors.pos) = [#v[0, 4, 22], #v[1, 5, 21], #v[0, 5, 22], #v[16, 0, 1]] := by decide

-- ---------------------------------------------------------------- commands

-- 95 section 2.9: `NOP` on the baseline, and after reset
theorem test_nop_configured : (after (exec .nop (base #v[0, 0, 5]))).rspOut = some ⟨0x00, .ok⟩ ∧
    (after (exec .nop (base #v[0, 0, 5]))).pos = #v[0, 0, 5] := by decide
theorem test_nop_unconfigured : (after (exec .nop State.reset)).rspOut = some ⟨0x00, .ok⟩ := by decide
-- R124, worked example
theorem test_load_worked_example : (after (exec (.load cfgP2) State.reset)).pos = #v[4, 25, 21] ∧
    (after (exec (.load cfgP2) State.reset)).ring = #v[1, 1, 23] ∧
    (after (exec (.load cfgP2) State.reset)).sel = #v[2, 0, 1] ∧
    lettersOf (after (exec (.load cfgP2) State.reset)).plug = bytesOf "MBCDEFTHIJKLANOPQRSGUVWXYZ" := by decide
-- 95 section 2.8: the statuses of AB,BB / AA,1B / 11 / AB,bC / n = 14 on a configured engine
theorem test_load_failures : [cfgPairs 2 [0x41, 0x42, 0x42, 0x42], cfgPairs 2 [0x41, 0x41, 0x31, 0x42],
    cfgPairs 1 [0x31, 0x31], cfgPairs 2 [0x41, 0x42, 0x62, 0x43], cfgPairs 14 []].map
      (fun c => (after (exec (.load c) (base #v[0, 0, 0]))).rspOut) =
    [some ⟨0, .plugSelf⟩, some ⟨0, .plugSelf⟩, some ⟨0, .plugNonletter⟩, some ⟨0, .plugReuse⟩, some ⟨0, .plugCount⟩] := by
  decide
-- 95 section 2.7: M = R = 1 in one keypress, answer G
theorem test_enc_both_notches : (after (exec (.enc 0x41) (base #v[0, 4, 21]))).rspOut = some ⟨0x47, .ok⟩ ∧
    (after (exec (.enc 0x41) (base #v[0, 4, 21]))).pos = #v[1, 5, 22] := by decide
-- 95 section 2.7: `ENC 'a'` is passed through and does not step
theorem test_enc_lower_case : (after (exec (.enc 0x61) (base #v[0, 0, 0]))).rspOut = some ⟨0x61, .ok⟩ ∧
    (after (exec (.enc 0x61) (base #v[0, 0, 0]))).pos = #v[0, 0, 0] := by decide
-- program P2, command 13: `PROC 'd'` answers H under numbered and F under historical
theorem test_proc_across_notch : (after (exec (.proc 0x64) (p2 #v[4, 25, 4]))).rspOut = some ⟨0x48, .ok⟩ ∧
    (after (exec (.proc 0x64) (p2 #v[4, 25, 4]))).pos = #v[5, 0, 5] ∧
    (after (exec (.proc 0x64) (historical (p2 #v[4, 25, 4])))).rspOut = some ⟨0x46, .ok⟩ := by decide
-- 95 section 2.9: even a non-letter is refused when unconfigured
theorem test_proc_unconfigured : (after (exec (.proc 0x2C) State.reset)).rspOut = some ⟨0x00, .notConfigured⟩ := by decide
-- 70_reset_and_hazards.md R160: a command in flight is dropped with no response
theorem test_rst_drops_command : (after (step { base #v[0, 0, 0] with
    chan := .inFlight (packetOfBytes [0x02, 0x41]), host := [.rst] })).rspOut = none ∧
    (after (step { base #v[0, 0, 0] with
      chan := .inFlight (packetOfBytes [0x02, 0x41]), host := [.rst] })).configured = false := by decide
-- 95 section 2.9: opcode 0x04 on the baseline
theorem test_illegal_opcode : (after (step (State.withFetchWord (base #v[0, 0, 0]) 304 0x4104))).rspOut =
    some ⟨0x00, .illegalOp⟩ ∧
    (after (step (State.withFetchWord (base #v[0, 0, 0]) 304 0x4104))).configured = true := by decide
-- program P1, end state: pos_out = 0x0005
theorem test_pos_out : (base #v[0, 0, 5]).posOut 0x7FFF = 0x0005 ∧ State.reset.posOut 0x1234 = 0x1234 := by decide

-- ---------------------------------------------------------------- witnesses: the hypotheses of the obligations can be met

/-- An engine with a command in flight. -/
def flying (s : State) (bs : List Byte) (host : List HostAction) : State :=
  { s with chan := .inFlight (packetOfBytes bs), host := host }

theorem witness_StepRunsAcceptedCommand :
    ((flying State.reset [0x00] [.take]).host.head? ≠ some .rst ∧ decode (packetOfBytes [0x00]) = .ok .nop) ∧
    ((flying State.reset [0x04] [.pause, .rst]).host.head? ≠ some .rst ∧
      decode (packetOfBytes [0x04]) = .error (.illegalOp 0x04)) := by decide
theorem witness_HandshakeMovesOnlyWhenReady :
    let issue := fun s : State => { s with host := [.issue 0x4102, .take] }
    let take := fun s : State => { s with host := [.take, .rst] }
    ((issue State.reset).host = .issue 0x4102 :: [.take] ∧ (issue State.reset).chan = .idle) ∧
    (issue (flying State.reset [0x00] [])).chan = .inFlight (packetOfBytes [0x00]) ∧
    (issue (State.reset.respond .ok 0x00)).chan = .answered ⟨0x00, .ok⟩ ∧
    ((take State.reset).host = .take :: [.rst] ∧ (take State.reset).chan = .idle) ∧
    (take (flying State.reset [0x00] [])).chan = .inFlight (packetOfBytes [0x00]) ∧
    (take (State.reset.respond .ok 0x42)).chan = .answered ⟨0x42, .ok⟩ ∧
    State.reset.host = [] ∧ State.reset.chan = .idle := ⟨⟨rfl, rfl⟩, rfl, rfl, ⟨rfl, rfl⟩, rfl, rfl, rfl, rfl⟩
theorem witness_ScriptGivesOneResponsePerCommand :
    let s : State := { base #v[0, 0, 0] with host := hostScript [.nop, .enc 0x41] ++ [.rst] }
    (∀ i ∈ [Instr.nop, .enc 0x41], i.wellFormed = true) ∧ s.chan = .idle ∧
      s.host = hostScript [.nop, .enc 0x41] ++ [.rst] := by
  refine ⟨by decide, rfl, rfl⟩
theorem witness_OpcodeByteDecides :
    byteAt (packetOfBytes [0x00]) 0 = 0x00 ∧ byteAt (packetOfBytes [0x01]) 0 = 0x01 ∧
    byteAt (packetOfBytes [0x02]) 0 = 0x02 ∧ byteAt (packetOfBytes [0x03]) 0 = 0x03 ∧
    4 ≤ (byteAt (packetOfBytes [0x04]) 0).toNat ∧ 4 ≤ (byteAt (packetOfBytes [0xFF]) 0).toNat := by decide
theorem witness_PacketFieldsAtTheirBits :
    (packetOfBytes [0x02]).extractLsb' 0 8 = 0x02 ∧ (packetOfBytes [0x03]).extractLsb' 0 8 = 0x03 ∧
    (packetOfBytes [0x01]).extractLsb' 0 8 = 0x01 ∧
    ((cfgPairs 12 []).npairs.toNat ≤ 13 ∧ (cfgPairs 12 []).npairs.toNat ≤ 12) ∧
    ¬ ((cfgPairs 13 []).npairs.toNat ≤ 13 ∧ (cfgPairs 13 []).npairs.toNat ≤ 12) ∧
    ¬ ((cfgPairs 14 []).npairs.toNat ≤ 13 ∧ (cfgPairs 14 []).npairs.toNat ≤ 12) := by decide
theorem witness_DecodeEncodeRoundTrip :
    (Instr.load cfgP2).wellFormed = true ∧ (Instr.load (cfgPairs 255 [0x31, 0x31])).wellFormed = true := by decide
theorem witness_DecodedCommandsAreCanonical :
    decode (packetOfBytes [0x03, 0xFF, 0xFF]) = .ok (.proc 0xFF) := by decide
theorem witness_IgnoredFieldsHaveNoEffect :
    (byteAt (packetOfBytes [0x00, 0x41]) 0 = byteAt (packetOfBytes [0x00]) 0 ∧
      byteAt (packetOfBytes [0x00, 0x41]) 0 = 0x00) ∧
    (byteAt (packetOfBytes [0x02, 0x41, 0xFF]) 0 = 0x02 ∧
      byteAt (packetOfBytes [0x02, 0x41, 0xFF]) 1 = byteAt (packetOfBytes [0x02, 0x41]) 1) ∧
    (let p := packetOfBytes [0x01, 0xFF, 0, 1, 2, 0, 0, 0, 0, 0, 0, 1, 0x41, 0x42, 0x31, 0x31]
     let q := packetOfBytes [0x01, 0x00, 0, 1, 2, 0, 0, 0, 0, 0, 0, 1, 0x41, 0x42]
     byteAt p 0 = 0x01 ∧ (∀ k, 2 ≤ k → k ≤ 11 → byteAt p k = byteAt q k) ∧
      ∀ k, k < 13 → (13 < (byteAt p 11).toNat ∨ k < (byteAt p 11).toNat) →
        byteAt p (12 + 2 * k) = byteAt q (12 + 2 * k) ∧ byteAt p (13 + 2 * k) = byteAt q (13 + 2 * k)) := by
  refine ⟨by decide, by decide, by decide, ?_, ?_⟩
  · have h : ∀ k : Fin 12, 2 ≤ k.val →
        byteAt (packetOfBytes [0x01, 0xFF, 0, 1, 2, 0, 0, 0, 0, 0, 0, 1, 0x41, 0x42, 0x31, 0x31]) k =
        byteAt (packetOfBytes [0x01, 0x00, 0, 1, 2, 0, 0, 0, 0, 0, 0, 1, 0x41, 0x42]) k := by decide
    intro k h1 h2
    exact h ⟨k, by omega⟩ h1
  · have hn : (byteAt (packetOfBytes [0x01, 0xFF, 0, 1, 2, 0, 0, 0, 0, 0, 0, 1, 0x41, 0x42, 0x31, 0x31]) 11).toNat = 1 := by
      decide
    intro k h1 h2
    have hk : k = 0 := by omega
    subst hk
    decide
theorem witness_ResponsePacketFields : byteAt (packetOfBytes [0x00, 0x41]) 0 = 0x00 ∧
    byteAt (packetOfBytes [0x01, 0x41]) 0 = 0x01 ∧
    (after (runPacket (packetOfBytes [0x02, 0x41]) State.reset)).rspOut = some ⟨0x00, .notConfigured⟩ := by decide
theorem witness_StatusesOfEachCommand : (base #v[0, 0, 0]).configured = true ∧ State.reset.configured = false := by decide
theorem witness_ModuloIsTrueModulo : (0 : Int) < 26 ∧ (0 : Int) ≤ 2 ∧ (2 : Int) < 26 ∧ (26 : Int) ∣ -128 - 2 := by decide
theorem witness_LetterAndFoldBytes : isLetter 0x41 = true ∧ isLetter 0x5A = true ∧ isLetter 0x40 = false ∧
    isLetter 0x5B = false := by decide
theorem witness_StepSlotAddsOne : (2 : Slot) ≠ 0 := by decide
theorem witness_AtNotchReadsPositionAlone : ((base #v[0, 0, 0]).setPos 2 21).atNotch 2 = true := by decide
theorem witness_SubstitutionReadsShiftAlone :
    let s := { base #v[1, 0, 0] with ring := #v[3, 0, 0] }
    let t := { base #v[24, 0, 0] with ring := #v[0, 0, 0] }
    s.par = t.par ∧ s.sel[(0 : Slot)] = t.sel[(0 : Slot)] ∧ mod (s.shift 0) 26 = mod (t.shift 0) 26 := by
  refine ⟨rfl, rfl, by decide⟩
theorem witness_RotorInverseLaw : State.reset.par.wellFormed = true := by decide
theorem witness_BuildPlugExchangesPairs : validPairs [(0, 12), (19, 6)] ∧ ((0, 12) : Idx × Idx) ∈ [((0, 12) : Idx × Idx), (19, 6)] ∧
    (3 : Idx) ∉ pairLetters [(0, 12), (19, 6)] ∧ validPairs [(6, 19), (0, 12)] ∧
    ∀ a b : Idx, (a, b) ∈ [((6, 19) : Idx × Idx), (0, 12)] ∨ (b, a) ∈ [((6, 19) : Idx × Idx), (0, 12)] ↔
      (a, b) ∈ [((0, 12) : Idx × Idx), (19, 6)] ∨ (b, a) ∈ [((0, 12) : Idx × Idx), (19, 6)] := by
  refine ⟨by unfold validPairs; decide, by decide, by decide, by unfold validPairs; decide, ?_⟩
  intro a b
  simp only [List.mem_cons, Prod.mk.injEq, List.not_mem_nil, or_false]
  tauto
theorem witness_PlugTableAgreesWithScan : validPairs [(0, 1), (2, 3)] := by unfold validPairs; decide
theorem witness_LoadedPlugboardIsInvolution : ∃ t, exec (.load cfgP2) State.reset = .next t ∧ t.configured = true :=
  ⟨_, rfl, rfl⟩
theorem witness_ReflectorInvolutionWithoutFixedPoint : defaultParams.wellFormed = true := by decide
theorem witness_NumberedStepping : (base #v[0, 4, 21]).par.stepRule = .numbered := rfl
theorem witness_HistoricalStepping : (historical (base #v[0, 4, 21])).par.stepRule = .historical := rfl
theorem witness_MiddleMovesOnceIn26 :
    (base #v[0, 3, 21]).par.stepRule = .numbered ∧ (base #v[0, 3, 21]).atNotch 2 = true := by decide
theorem witness_LeftRunsWhileMiddleAtNotch : (base #v[0, 4, 22]).par.stepRule = .numbered ∧
    (base #v[0, 4, 22]).pos[2].val = (((base #v[0, 4, 22]).notch 2).val + 1) % 26 ∧
    (base #v[0, 4, 22]).atNotch 1 = true := by decide
theorem witness_SteppingIsOneCycle : (base #v[0, 0, 0]).par = (base #v[25, 25, 25]).par ∧
    (base #v[0, 0, 0]).par.stepRule = .numbered ∧ (base #v[0, 0, 0]).sel = (base #v[25, 25, 25]).sel := ⟨rfl, rfl, rfl⟩
theorem witness_PositionsCountKeypresses :
    let t := { base #v[0, 3, 20] with ring := #v[1, 2, 3], plug := buildPlug [(0, 1)] }
    (base #v[0, 3, 20]).configured = true ∧ t.configured = true ∧ (base #v[0, 3, 20]).par = t.par ∧
    (base #v[0, 3, 20]).sel = t.sel ∧ (base #v[0, 3, 20]).pos = t.pos ∧
    (∀ i ∈ [Instr.enc 0x41, .nop, .enc 0x61], isLoad i = false) ∧ (∀ j ∈ [Instr.proc 0x62], isLoad j = false) ∧
    keypresses [.enc 0x41, .nop, .enc 0x61] = keypresses [.proc 0x62] ∧
    (transcript [.enc 0x41, .nop, .enc 0x61] (base #v[0, 3, 20])).isSome = true ∧
    (transcript [.proc 0x62] t).isSome = true := by
  refine ⟨rfl, rfl, rfl, rfl, rfl, by decide, by decide, by decide, by decide, by decide⟩
theorem witness_NopAnswersOkAndChangesNothing : byteAt (packetOfBytes [0x00, 0xFF]) 0 = 0x00 := by decide
theorem witness_LegalLoadConstructsMachine :
    legalRecord cfgP2 [(0, 12), (19, 6)] ∧ legalRecord (cfgPairs 0 []) [] := by
  unfold legalRecord readsAsPairs validPairs
  decide
theorem witness_LoadReportsFirstFailedCheck :
    (∃ i : Slot, 2 < (recordOf [0x01, 0x00, 0x00, 0x01, 0x03]).sel[i].toNat) ∧
    ((∀ i : Slot, (cfgPairs 14 []).sel[i].toNat ≤ 2) ∧ 13 < (cfgPairs 14 []).npairs.toNat) ∧
    (readsAsPairs ((usedPairs (cfgPairs 1 [0x41, 0x31])).take 0) [] ∧
      pairLetter (cfgPairs 1 [0x41, 0x31]).pairs[(0 : Fin 13)].2 = none) ∧
    (readsAsPairs ((usedPairs (cfgPairs 2 [0x41, 0x42, 0x61, 0x41])).take 1) [(0, 1)] ∧ validPairs [(0, 1)] ∧
      pairLetter (cfgPairs 2 [0x41, 0x42, 0x61, 0x41]).pairs[(1 : Fin 13)].1 = some 0 ∧
      pairLetter (cfgPairs 2 [0x41, 0x42, 0x61, 0x41]).pairs[(1 : Fin 13)].2 = some 0) ∧
    (readsAsPairs ((usedPairs (cfgPairs 2 [0x41, 0x42, 0x43, 0x61])).take 1) [(0, 1)] ∧
      pairLetter (cfgPairs 2 [0x41, 0x42, 0x43, 0x61]).pairs[(1 : Fin 13)].1 = some 2 ∧
      pairLetter (cfgPairs 2 [0x41, 0x42, 0x43, 0x61]).pairs[(1 : Fin 13)].2 = some 0 ∧
      (0 : Idx) ∈ pairLetters [(0, 1)]) ∧
    legalRecord (cfgPairs 0 []) [] := by
  unfold legalRecord readsAsPairs validPairs
  decide
-- the last clause at the last slot: k = 12 of 13 pairs
theorem witness_LoadReportsFirstFailedCheck_last_pair :
    let c := recordOfWord
      0x31315857565554535251504F4E4D4C4B4A4948474645444342410D0000000000000201000001
    let ps : List (Idx × Idx) := [(0, 1), (2, 3), (4, 5), (6, 7), (8, 9), (10, 11), (12, 13), (14, 15), (16, 17), (18, 19), (20, 21), (22, 23)]
    c.npairs.toNat = 13 ∧ readsAsPairs ((usedPairs c).take 12) ps ∧ validPairs ps ∧
      pairLetter c.pairs[(12 : Fin 13)].1 = none := by
  unfold readsAsPairs validPairs
  decide
theorem witness_FailedLoadLeavesNoMachine : ∀ ps, ¬ legalRecord (recordOf [0x01, 0x00, 0x03]) ps := by
  intro ps h
  have h0 := h.1 0
  revert h0
  decide
theorem witness_LoadDoesNotReadOldState :
    ∃ t t', exec (.load cfgP2) State.reset = .next t ∧ exec (.load cfgP2) (base #v[1, 2, 3]) = .next t' ∧
      t.configured = true := ⟨_, _, rfl, rfl, rfl⟩
theorem witness_EncStepsThenSubstitutes : State.reset.configured = false ∧ (base #v[0, 0, 0]).configured = true ∧
    isLetter 0x40 = false ∧ charToIdx 0x41 = some 0 ∧ charToIdx 0x5A = some 25 := by decide
theorem witness_EncPassesNonLetters : (base #v[0, 0, 0]).configured = true ∧ isLetter 0x5B = false ∧
    0x61 ≤ (0x61 : Byte).toNat ∧ (0x7A : Byte).toNat ≤ 0x7A := by decide
theorem witness_ProcEnciphersFoldedByte : State.reset.configured = false ∧ (base #v[0, 0, 0]).configured = true ∧
    isLetter (fold 0x7B) = false ∧ charToIdx (fold 0x7A) = some 25 := by decide
theorem witness_ConfiguredEngineNeverErrs : (base #v[0, 0, 0]).configured = true := rfl
theorem witness_CommandFrame : (∃ t, exec (.enc 0x41) (base #v[0, 0, 0]) = .next t) ∧ isLoad (.enc 0x41) = false ∧
    keyLetter (.enc 0x61) = none ∧ State.reset.configured = false := ⟨⟨_, rfl⟩, rfl, by decide, rfl⟩

/-- The baseline engine meets the invariant and is configured. -/
theorem base_inv : (base #v[0, 0, 0]).Inv ∧ (base #v[0, 0, 0]).configured = true :=
  ⟨⟨by decide, fun _ => by decide⟩, rfl⟩
theorem witness_EncipheringIsInvolution : (base #v[0, 0, 0]).Inv ∧ (base #v[0, 0, 0]).configured = true := base_inv
theorem witness_NoLetterEnciphersToItself : ((base #v[0, 0, 0]).Inv ∧ (base #v[0, 0, 0]).configured = true) ∧
    isLetter 0x5A = true ∧ isLetter 0x5B = false := ⟨base_inv, by decide, by decide⟩
theorem witness_OutputLengthEqualsInputLength : (base #v[0, 0, 0]).configured = true := rfl
theorem witness_NonLettersKeepTheirPlace : ((base #v[0, 0, 0]).Inv ∧ (base #v[0, 0, 0]).configured = true) ∧
    (transcript (procs [0x61, 0x2C]) (base #v[0, 0, 0])).isSome = true ∧
    isLetter (fold 0x61) = true ∧ isLetter (fold 0x2C) = false := ⟨base_inv, by decide, by decide, by decide⟩
theorem witness_RoundTrip : State.reset.par = (base #v[1, 2, 3]).par ∧ State.reset.par.wellFormed = true ∧
    legalRecord cfgP2 [(0, 12), (19, 6)] := ⟨rfl, by decide, witness_LegalLoadConstructsMachine.1⟩
theorem witness_AssemblerEmitsCanonicalCommands : assemble "PROCS \"aB\"" = some [.proc 0x61, .proc 0x42] := by decide
theorem witness_NonKeypressesInterleaveHarmlessly : (base #v[0, 0, 0]).configured = true ∧
    (∀ i ∈ [Instr.nop, .enc 0x41, .proc 0x2C], isLoad i = false) ∧
    (transcript [.nop, .enc 0x41, .proc 0x2C] (base #v[0, 0, 0])).isSome = true := by decide
theorem witness_UnconfiguredUntilLoad : State.reset.configured = false ∧
    (∀ i ∈ [Instr.nop, .enc 0x41], isLoad i = false) ∧
    (transcript [.nop, .enc 0x41] State.reset).isSome = true := by decide
theorem witness_IdempotentCommands : (∃ t, exec .nop State.reset = .next t) ∧
    (isLoad (.proc 0x2C) = false ∧ keyLetter (.proc 0x2C) = none ∧ ∃ t, exec (.proc 0x2C) (base #v[0, 0, 0]) = .next t) ∧
    (legalRecord cfgP2 [(0, 12), (19, 6)] ∧ ∃ t, exec (.load cfgP2) State.reset = .next t) :=
  ⟨⟨_, rfl⟩, ⟨rfl, by decide, ⟨_, rfl⟩⟩, witness_LegalLoadConstructsMachine.1, ⟨_, rfl⟩⟩
theorem witness_StepKeepsMachineInvariant : State.reset.Inv ∧ ∃ t, step State.reset = .next t :=
  ⟨⟨by decide, by decide⟩, ⟨_, rfl⟩⟩
theorem witness_LifecycleTransitions :
    (State.reset.configured = false ∧
      (after (step (State.withFetchWord State.reset 304 0x01))).configured = true) ∧
    ((base #v[0, 0, 0]).configured = true ∧
      (after (step (State.withFetchWord (base #v[0, 0, 0]) 304 0x030001))).configured = false) ∧
    (after (step { base #v[0, 0, 0] with host := [.rst] })).configured = false := by decide
theorem witness_RegistersChangeOnlyAsStated :
    let s := flying (base #v[0, 0, 0]) [0x02, 0x41] []
    (∃ t, step s = .next t) ∧ s.host.head? ≠ some .rst ∧
    ∀ p cfg, s.chan = .inFlight p → decode p ≠ .ok (.load cfg) := by
  refine ⟨⟨_, rfl⟩, by decide, ?_⟩
  intro p cfg h
  cases h
  have hd : decode (packetOfBytes [0x02, 0x41]) = .ok (.enc 0x41) := by decide
  rw [hd]
  intro he
  cases he
theorem witness_ParametersNeverChange : ∃ t, step (base #v[0, 0, 0]) = .next t := ⟨_, rfl⟩
theorem witness_ResetEventEmptiesEngine :
    (flying (base #v[0, 0, 0]) [0x02, 0x41] [.rst, .take]).host = .rst :: [.take] := rfl
theorem witness_StatusOutputsShowPositions : (base #v[25, 0, 5]).configured = true ∧ State.reset.configured = false :=
  ⟨rfl, rfl⟩

end Sys2Proof.Tests
end

