-- ==== Sys2Proof/Proofs/PlugInvolution.lean ====
section
/-! PROOFS. The plugboard table of a valid pair list is an involution (42_plugboard.md R103). -/
namespace Sys2Proof.Machine

/-- Plugging two letters that are still their own images keeps an involution one: no other letter is sent to either. -/
theorem plugPair_involutive {t : Table} {a b : Idx} (ht : Function.Involutive (memRead t))
    (ha : memRead t a = a) (hb : memRead t b = b) : Function.Involutive (memRead (plugPair t (a, b))) := by
  intro c
  by_cases hcb : c = b
  · by_cases hab : a = b <;> simp [memRead_plugPair, hcb, hab]
  by_cases hca : c = a
  · simp [memRead_plugPair, hca]
  have htb : memRead t c ≠ b := fun h => hcb (by rw [← ht c, h, hb])
  have hta : memRead t c ≠ a := fun h => hca (by rw [← ht c, h, ha])
  simp [memRead_plugPair, hcb, hca, htb, hta, ht c]

/-- Plugging a valid list whose letters are all still their own images keeps an involution one. -/
theorem foldl_plugPair_involutive {ps : List (Idx × Idx)} {t : Table} (hv : validPairs ps)
    (ht : Function.Involutive (memRead t)) (hfix : ∀ c ∈ pairLetters ps, memRead t c = c) :
    Function.Involutive (memRead (ps.foldl plugPair t)) := by
  induction ps generalizing t with
  | nil => exact ht
  | cons p ps ih =>
    obtain ⟨a, b⟩ := p
    obtain ⟨-, hna, hnb, hv'⟩ := (validPairs_cons a b ps).1 hv
    refine ih hv' (plugPair_involutive ht (hfix a (by simp)) (hfix b (by simp))) fun c hc => ?_
    have hcb : c ≠ b := fun h => hnb (h ▸ hc)
    have hca : c ≠ a := fun h => hna (h ▸ hc)
    rw [memRead_plugPair, if_neg hcb, if_neg hca, hfix c (by simp [hc])]

/-- The built plugboard of a valid list is an involution (R103). -/
theorem buildPlug_involutive {ps : List (Idx × Idx)} (hv : validPairs ps) :
    Function.Involutive (memRead (buildPlug ps)) :=
  foldl_plugPair_involutive hv (fun c => by simp) fun c _ => by simp

/-- The pair list of a validated record plugs an involution (45_datapath_commands.md R123). -/
theorem buildPlug_involutive_of_validate {cfg : Cfg} {sel : Vector Sel 3} {ps : List (Idx × Idx)}
    (h : validate cfg = .ok (sel, ps)) : Function.Involutive (memRead (buildPlug ps)) := by
  obtain ⟨-, -, -, hv⟩ := legal_of_validate h
  exact buildPlug_involutive hv

end Sys2Proof.Machine
end

