-- ==== Sys2Proof/Proofs/MachineInvariant.lean ====
section
/-! PROOFS. The invariant of the machine: it holds after reset, and every command and every step keeps it. -/
namespace Sys2Proof.Machine

/-- A change of the other fields keeps the invariant. -/
theorem State.Inv.of_kept {s t : State} (h : s.Inv) (hpar : t.par = s.par) (hplug : t.plug = s.plug)
    (hconf : t.configured = s.configured) : t.Inv := by
  simpa only [State.Inv, State.swap, hpar, hplug, hconf] using h

/-- Nothing is asked of an unconfigured engine's plugboard. -/
theorem State.inv_of_unconfigured {s : State} (hpar : s.par.wellFormed = true) (hconf : s.configured = false) : s.Inv :=
  ⟨hpar, fun hc => absurd hc (by simp [hconf])⟩

/-- The shared body of `ENC` and `PROC` keeps the invariant: a keypress moves only the positions. -/
theorem encipher_inv {ch : Byte} {s t : State} (h : s.Inv) (he : encipher ch s = .next t) : t.Inv := by
  obtain ⟨-, heq⟩ | ⟨-, -, heq⟩ | ⟨x, -, -, heq⟩ := encipher_cases ch s <;> rw [heq] at he <;> cases he
  · exact h.of_kept (by simp) (by simp) (by simp)
  · exact h.of_kept (by simp) (by simp) (by simp)
  · exact h.of_kept (by simp) (by simp) (by simp)

/-- `LOAD` keeps the invariant: it plugs a validated list, or no machine is left (R122). -/
theorem execLoad_inv {cfg : Cfg} {s t : State} (h : s.Inv) (he : execLoad cfg s = .next t) : t.Inv := by
  obtain ⟨hpar, -⟩ := h
  obtain ⟨sel, ps, hval, heq⟩ | ⟨e, -, heq⟩ := execLoad_cases cfg s <;> rw [heq] at he <;> cases he
  · exact ⟨hpar, fun _ => buildPlug_involutive_of_validate hval⟩
  · exact State.inv_of_unconfigured hpar (by simp)

/-- Every command keeps the invariant. -/
theorem exec_inv {i : Instr} {s t : State} (h : s.Inv) (he : exec i s = .next t) : t.Inv := by
  cases i with
  | nop => cases he; exact h.of_kept (by simp) (by simp) (by simp)
  | load cfg => exact execLoad_inv h he
  | enc ch => exact encipher_inv h he
  | proc ch => exact encipher_inv h he

/-- Every accepted packet keeps the invariant; an illegal opcode is only answered (30_encoding.md R71). -/
theorem runPacket_inv {p : Packet} {s t : State} (h : s.Inv) (he : runPacket p s = .next t) : t.Inv := by
  obtain ⟨i, -, heq⟩ | ⟨e, -, heq⟩ := runPacket_cases p s <;> rw [heq] at he
  · exact exec_inv h he
  · cases he; exact h.of_kept (by simp) (by simp) (by simp)

/-- Every step keeps the invariant: a reset leaves no machine, a packet is executed, and the handshake's own moves write
channel and host fields only. -/
theorem step_inv {s t : State} (h : s.Inv) (hs : step s = .next t) : t.Inv := by
  obtain ⟨rest, -, heq⟩ | ⟨p, l, -, -, -, heq⟩ | ⟨p, rest, -, -, heq⟩ | ⟨r, rest, -, -, heq⟩ | ⟨l, -, -, -, heq⟩ :=
    step_cases s <;> rw [heq] at hs
  · obtain ⟨hpar, -⟩ := h
    cases hs; exact State.inv_of_unconfigured hpar rfl
  · have hhost : State.Inv { s with host := l } := h.of_kept rfl rfl rfl
    exact runPacket_inv hhost hs
  · cases hs; exact h.of_kept rfl rfl rfl
  · cases hs; exact h.of_kept rfl rfl rfl
  · cases hs; exact h.of_kept rfl rfl rfl

end Sys2Proof.Machine

namespace Sys2Proof
open Sys2Proof.Machine

/-- Settles O48: of the five kinds of step only a `LOAD` leaves a configured engine with a new plugboard, and it plugs a
validated pair list. -/
theorem stepKeepsMachineInvariant : Obligations.StepKeepsMachineInvariant :=
  fun _ _ h hs => step_inv h hs

/-- Settles O49: the default tables are well formed by computation, and reset leaves the engine unconfigured. -/
theorem resetMeetsMachineInvariant : Obligations.ResetMeetsMachineInvariant := by
  have hpar : State.reset.par.wellFormed = true := by decide
  exact State.inv_of_unconfigured hpar rfl

end Sys2Proof
end

