-- ==== Sys2Proof/Proofs/StepOutcomes.lean ====
section
/-! PROOFS. What a command, an accepted packet and a step can leave behind, as equations for the state after it: the frame
statements about the state are read off these. -/
namespace Sys2Proof.Machine

/-- The status of a refused record is an error (45_datapath_commands.md R123). -/
theorem validate_error_ne_ok {cfg : Cfg} {e : Status} (h : validate cfg = .error e) : e ≠ .ok := by
  obtain ⟨sel, ps, hok, -⟩ | ⟨e', herr, hst⟩ := validate_cases cfg
  · rw [hok] at h; cases h
  · rw [herr] at h; cases h
    obtain rfl | rfl | rfl | rfl | rfl := hst <;> decide

/-- `ENC` and `PROC` only answer, or press a key in a configured engine. -/
theorem encipher_outcomes {ch : Byte} {s t : State} (h : encipher ch s = .next t) :
    (∃ st c, t = s.respond st c) ∨ (∃ x, charToIdx ch = some x ∧ s.configured = true ∧ t = s.keypress x) := by
  obtain ⟨-, heq⟩ | ⟨-, -, heq⟩ | ⟨x, hconf, hx, heq⟩ := encipher_cases ch s <;> rw [heq] at h <;> cases h
  · exact .inl ⟨_, _, rfl⟩
  · exact .inl ⟨_, _, rfl⟩
  · exact .inr ⟨x, hx, hconf, rfl⟩

/-- A command only answers, presses a key in a configured engine, or is a `LOAD` that succeeds or fails. -/
theorem exec_outcomes {i : Instr} {s t : State} (h : exec i s = .next t) :
    (∃ st ch, t = s.respond st ch) ∨
    (∃ x, keyLetter i = some x ∧ s.configured = true ∧ t = s.keypress x) ∨
    (∃ cfg sel ps, i = .load cfg ∧ t = (s.commit cfg sel ps).respond .ok 0x00) ∨
    (∃ cfg e, i = .load cfg ∧ e ≠ .ok ∧ t = s.failLoad e) := by
  cases i with
  | nop => cases h; exact .inl ⟨_, _, rfl⟩
  | load cfg =>
    obtain ⟨sel, ps, -, heq⟩ | ⟨e, hval, heq⟩ := execLoad_cases cfg s <;> rw [exec_load, heq] at h <;> cases h
    · exact .inr (.inr (.inl ⟨cfg, sel, ps, rfl, rfl⟩))
    · exact .inr (.inr (.inr ⟨cfg, e, rfl, validate_error_ne_ok hval, rfl⟩))
  | enc ch => exact (encipher_outcomes h).imp_right .inl
  | proc ch => exact (encipher_outcomes h).imp_right .inl

/-- An accepted packet does what its command does; an illegal opcode is only answered (30_encoding.md R71). -/
theorem runPacket_outcomes {p : Packet} {s t : State} (h : runPacket p s = .next t) :
    (∃ st ch, t = s.respond st ch) ∨
    (∃ i x, decode p = .ok i ∧ keyLetter i = some x ∧ s.configured = true ∧ t = s.keypress x) ∨
    (∃ cfg sel ps, decode p = .ok (.load cfg) ∧ t = (s.commit cfg sel ps).respond .ok 0x00) ∨
    (∃ cfg e, decode p = .ok (.load cfg) ∧ e ≠ .ok ∧ t = s.failLoad e) := by
  obtain ⟨i, hdec, heq⟩ | ⟨e, -, heq⟩ := runPacket_cases p s <;> rw [heq] at h
  · obtain hanswer | ⟨x, hkey⟩ | ⟨cfg, sel, ps, rfl, ht⟩ | ⟨cfg, e, rfl, hfail⟩ := exec_outcomes h
    · exact .inl hanswer
    · exact .inr (.inl ⟨i, x, hdec, hkey⟩)
    · exact .inr (.inr (.inl ⟨cfg, sel, ps, hdec, ht⟩))
    · exact .inr (.inr (.inr ⟨cfg, e, hdec, hfail⟩))
  · cases h; exact .inl ⟨_, _, rfl⟩

/-- A step is a reset, the execution of the command in flight, or a move of the handshake, which writes channel and host
fields only. -/
theorem step_outcomes {s t : State} (h : step s = .next t) :
    (∃ rest, s.host = .rst :: rest ∧ t = { s.rstEvent with host := rest }) ∨
    (∃ p l, s.chan = .inFlight p ∧ runPacket p { s with host := l } = .next t) ∨
    (∃ chan l rs, t = { s with chan := chan, host := l, received := rs }) := by
  obtain ⟨rest, hhost, heq⟩ | ⟨p, l, hchan, -, -, heq⟩ | ⟨p, rest, -, -, heq⟩ | ⟨r, rest, -, -, heq⟩ |
    ⟨l, -, -, -, heq⟩ := step_cases s <;> rw [heq] at h
  · cases h; exact .inl ⟨rest, hhost, rfl⟩
  · exact .inr (.inl ⟨p, l, hchan, h⟩)
  · cases h; exact .inr (.inr ⟨_, _, _, rfl⟩)
  · cases h; exact .inr (.inr ⟨_, _, _, rfl⟩)
  · cases h; exact .inr (.inr ⟨_, _, _, rfl⟩)

/-- The stepper reads the parameters, `SEL` and `POS` alone (44_stepper_fsm.md R113). -/
theorem State.stepRotors_pos_congr {s t : State} (hpar : s.par = t.par) (hsel : s.sel = t.sel) (hpos : s.pos = t.pos) :
    s.stepRotors.pos = t.stepRotors.pos := by
  have hnotch (i : Slot) : s.atNotch i = t.atNotch i := by
    simp only [State.atNotch, hpos, State.notch_congr hpar hsel]
  simp only [State.stepRotors, hnotch, hpar]
  cases t.par.stepRule <;> simp [hpos]

end Sys2Proof.Machine
end

