-- ==== Sys2Proof/Proofs/StateFrames.lean ====
section
/-! PROOFS. What commands and steps do to the registers, to CONFIGURED and to the parameters (10_state.md). -/
namespace Sys2Proof
open Sys2Proof.Machine

/-- Settles O33: `validate` passes legal records only, so this `LOAD` fails. -/
theorem failedLoadLeavesNoMachine : Obligations.FailedLoadLeavesNoMachine := by
  intro s cfg hillegal
  obtain ⟨sel, ps, hval, -⟩ | ⟨e, hval, heq⟩ := execLoad_cases cfg s
  · exact absurd (legal_of_validate hval) (hillegal ps)
  · exact ⟨_, e, heq, rfl, rfl, validate_error_ne_ok hval, rfl, rfl, rfl⟩

/-- Settles O39: an answer, a keypress and the two ends of a `LOAD` each have the frame. -/
theorem commandFrame : Obligations.CommandFrame := by
  intro i s t h
  obtain ⟨st, ch, rfl⟩ | ⟨x, hx, hconf, rfl⟩ | ⟨cfg, sel, ps, rfl, rfl⟩ | ⟨cfg, e, rfl, -, rfl⟩ := exec_outcomes h
  · simp
  · simp [hx, hconf]
  · simp [isLoad]
  · simp [isLoad]

/-- Settles O50: apart from a reset and a `LOAD`, every outcome of a step keeps `CONFIGURED`. -/
theorem lifecycleTransitions : Obligations.LifecycleTransitions := by
  intro s t h
  obtain ⟨rest, hhost, rfl⟩ | ⟨p, l, hchan, hrun⟩ | ⟨chan, l, rs, rfl⟩ := step_outcomes h
  · simp [hhost]
  · obtain ⟨st, ch, rfl⟩ | ⟨i, x, -, -, -, rfl⟩ | ⟨cfg, sel, ps, hdec, rfl⟩ | ⟨cfg, e, hdec, he, rfl⟩ :=
      runPacket_outcomes hrun
    · simp +contextual
    · simp +contextual
    · exact ⟨fun _ _ => ⟨p, cfg, hchan, hdec, rfl⟩, by simp⟩
    · exact ⟨by simp, fun _ _ => .inr ⟨p, cfg, e, hchan, hdec, rfl, he⟩⟩
  · simp +contextual

/-- Settles O51: the hypotheses leave an answer, a keypress and the moves of the handshake. A pause that the executing step
passes over changes the host's list, which the stepper does not read. -/
theorem registersChangeOnlyAsStated : Obligations.RegistersChangeOnlyAsStated := by
  intro s t h hrst hload
  obtain ⟨rest, hhost, -⟩ | ⟨p, l, hchan, hrun⟩ | ⟨chan, l, rs, rfl⟩ := step_outcomes h
  · simp [hhost] at hrst
  · obtain ⟨st, ch, rfl⟩ | ⟨i, x, hdec, hx, hconf, rfl⟩ | ⟨cfg, sel, ps, hdec, -⟩ | ⟨cfg, e, hdec, -⟩ :=
      runPacket_outcomes hrun
    · simp
    · have hpos : (State.stepRotors { s with host := l }).pos = s.stepRotors.pos :=
        State.stepRotors_pos_congr rfl rfl rfl
      exact ⟨by simp, by simp, by simp, by simp, .inr ⟨p, i, x, hchan, hdec, hx, hconf, by simp [hpos]⟩⟩
    · exact absurd hdec (hload p cfg hchan)
    · exact absurd hdec (hload p cfg hchan)
  · simp

/-- Settles O52: no outcome of a step writes the parameters. -/
theorem parametersNeverChange : Obligations.ParametersNeverChange := by
  intro s t h
  obtain ⟨rest, -, rfl⟩ | ⟨p, l, -, hrun⟩ | ⟨chan, l, rs, rfl⟩ := step_outcomes h
  · rfl
  · obtain ⟨st, ch, rfl⟩ | ⟨i, x, -, -, -, rfl⟩ | ⟨cfg, sel, ps, -, rfl⟩ | ⟨cfg, e, -, -, rfl⟩ :=
      runPacket_outcomes hrun <;> simp
  · rfl

/-- Settles O54: the fields of the reset state, as it names them. -/
theorem resetStateOfSpec : Obligations.ResetStateOfSpec := ⟨rfl, rfl, rfl, rfl⟩

end Sys2Proof
end

