-- ==== Sys2Proof/Proofs/StatusOutputs.lean ====
section
/-! PROOFS. The status outputs (10_state.md R33). -/
namespace Sys2Proof.Machine

/-- A letter index fits the 5 bits that carry it (00_scope.md R10). -/
theorem toNat_ofNat_idx (j : Idx) : (BitVec.ofNat 5 j.val).toNat = j.val := by
  rw [BitVec.toNat_ofNat]
  exact Nat.mod_eq_of_lt (by omega)

/-- The three fields of `pos_out` in a configured engine. -/
theorem State.posOut_fields {s : State} (h : s.configured = true) (u : BitVec 15) :
    (s.posOut u).extractLsb' 10 5 = BitVec.ofNat 5 s.pos[0] ∧
    (s.posOut u).extractLsb' 5 5 = BitVec.ofNat 5 s.pos[1] ∧
    (s.posOut u).extractLsb' 0 5 = BitVec.ofNat 5 s.pos[2] := by
  rw [State.posOut, if_pos h]
  refine ⟨?_, ?_, BitVec.extractLsb'_append_eq_right⟩
  · rw [BitVec.extractLsb'_append_eq_of_le (by decide)]
    exact BitVec.extractLsb'_append_eq_left
  · rw [BitVec.extractLsb'_append_eq_of_le (by decide)]
    exact BitVec.extractLsb'_append_eq_right

end Sys2Proof.Machine

namespace Sys2Proof
open Sys2Proof.Machine

/-- Settles O55: each output field is a position's 5 bits, and every position is below 32. -/
theorem statusOutputsShowPositions : Obligations.StatusOutputsShowPositions := by
  intro s u
  refine ⟨?_, fun hconf => ?_, fun hconf => ?_⟩
  · cases hconf : s.configured <;> simp [State.configuredOut, hconf]
  · obtain ⟨hleft, hmiddle, hright⟩ := State.posOut_fields hconf u
    rw [hleft, hmiddle, hright]
    exact ⟨toNat_ofNat_idx _, toNat_ofNat_idx _, toNat_ofNat_idx _⟩
  · simp [State.posOut, hconf]

end Sys2Proof
end

