-- ==== Sys2Proof/Proofs/PacketCodec.lean ====
section
/-! PROOFS. The decoder and the encoder of command packets (30_encoding.md R62 to R72): what a packet decodes to by its opcode
byte, where the fields of a record stand in either direction, and the round trips. -/
namespace Sys2Proof

/-! ### The command of a packet, by its opcode byte (R64, R71) -/

theorem decode_of_nop {p : Packet} (h : byteAt p 0 = 0x00) : decode p = .ok .nop := by
  simp [decode, h]

theorem decode_of_load {p : Packet} (h : byteAt p 0 = 0x01) : decode p = .ok (.load (decodeCfg p)) := by
  simp [decode, h]

theorem decode_of_enc {p : Packet} (h : byteAt p 0 = 0x02) : decode p = .ok (.enc (byteAt p 1)) := by
  simp [decode, h]

theorem decode_of_proc {p : Packet} (h : byteAt p 0 = 0x03) : decode p = .ok (.proc (byteAt p 1)) := by
  simp [decode, h]

theorem decode_of_illegal {p : Packet} (h : 4 ≤ (byteAt p 0).toNat) :
    decode p = .error (.illegalOp (byteAt p 0)) := by
  unfold decode
  split
  case h_5 => rfl
  all_goals omega

/-- A decoded command is the one its opcode byte names, with its operands read from the packet. -/
theorem decode_ok_cases {p : Packet} {i : Instr} (h : decode p = .ok i) :
    (byteAt p 0 = 0x00 ∧ i = .nop) ∨ (byteAt p 0 = 0x01 ∧ i = .load (decodeCfg p)) ∨
    (byteAt p 0 = 0x02 ∧ i = .enc (byteAt p 1)) ∨ (byteAt p 0 = 0x03 ∧ i = .proc (byteAt p 1)) := by
  unfold decode at h
  split at h <;> cases h
  · exact .inl ⟨BitVec.eq_of_toNat_eq ‹_›, rfl⟩
  · exact .inr (.inl ⟨BitVec.eq_of_toNat_eq ‹_›, rfl⟩)
  · exact .inr (.inr (.inl ⟨BitVec.eq_of_toNat_eq ‹_›, rfl⟩))
  · exact .inr (.inr (.inr ⟨BitVec.eq_of_toNat_eq ‹_›, rfl⟩))

/-! ### The record a packet decodes to (R62) -/

theorem decodeCfg_sel (p : Packet) (i : Fin 3) : (decodeCfg p).sel[i] = byteAt p (2 + i) := by
  simp [decodeCfg]

theorem decodeCfg_pos (p : Packet) (i : Fin 3) : (decodeCfg p).pos[i] = byteAt p (5 + i) := by
  simp [decodeCfg]

theorem decodeCfg_ring (p : Packet) (i : Fin 3) : (decodeCfg p).ring[i] = byteAt p (8 + i) := by
  simp [decodeCfg]

theorem decodeCfg_npairs (p : Packet) : (decodeCfg p).npairs = byteAt p 11 := rfl

theorem decodeCfg_pairs (p : Packet) (k : Fin 13) :
    (decodeCfg p).pairs[k] =
      if (byteAt p 11).toNat ≤ 13 ∧ (byteAt p 11).toNat ≤ k.val then (0, 0)
      else (byteAt p (12 + 2 * k), byteAt p (13 + 2 * k)) := by
  simp [decodeCfg, Cfg.ignoresPair_iff]

/-- An ignored slot of a decoded record is zero (R72; log 12). -/
theorem decodeCfg_wellFormed (p : Packet) : (decodeCfg p).wellFormed = true := by
  rw [Cfg.wellFormed_iff]
  intro k hcount hk
  rw [decodeCfg_pairs]
  exact if_pos ⟨hcount, hk⟩

theorem Cfg.ext_fields {c d : Cfg} (hsel : c.sel = d.sel) (hpos : c.pos = d.pos) (hring : c.ring = d.ring)
    (hnpairs : c.npairs = d.npairs) (hpairs : c.pairs = d.pairs) : c = d := by
  cases c; cases d; simp_all

/-- A packet decodes to a well-formed record as soon as its bytes are those of the fields the record uses. -/
theorem decodeCfg_eq {p : Packet} {c : Cfg} (hwf : c.wellFormed = true)
    (hsel : ∀ i : Fin 3, byteAt p (2 + i) = c.sel[i]) (hpos : ∀ i : Fin 3, byteAt p (5 + i) = c.pos[i])
    (hring : ∀ i : Fin 3, byteAt p (8 + i) = c.ring[i]) (hnpairs : byteAt p 11 = c.npairs)
    (hpairs : ∀ k : Fin 13, 13 < c.npairs.toNat ∨ k.val < c.npairs.toNat →
      (byteAt p (12 + 2 * k), byteAt p (13 + 2 * k)) = c.pairs[k]) :
    decodeCfg p = c := by
  have esel : (decodeCfg p).sel = c.sel := Vector.ext fun i hi => (decodeCfg_sel p ⟨i, hi⟩).trans (hsel ⟨i, hi⟩)
  have epos : (decodeCfg p).pos = c.pos := Vector.ext fun i hi => (decodeCfg_pos p ⟨i, hi⟩).trans (hpos ⟨i, hi⟩)
  have ering : (decodeCfg p).ring = c.ring := Vector.ext fun i hi => (decodeCfg_ring p ⟨i, hi⟩).trans (hring ⟨i, hi⟩)
  have epairs : (decodeCfg p).pairs = c.pairs := Vector.ext fun k hk => by
    have hread := decodeCfg_pairs p ⟨k, hk⟩
    rw [hnpairs] at hread
    split at hread
    · rename_i hignored
      obtain ⟨hcount, hle⟩ := hignored
      exact hread.trans ((Cfg.wellFormed_iff c).1 hwf ⟨k, hk⟩ hcount hle).symm
    · rename_i hused
      exact hread.trans (hpairs ⟨k, hk⟩ ((not_and_or.1 hused).imp Nat.lt_of_not_le Nat.lt_of_not_le))
  exact Cfg.ext_fields esel epos ering hnpairs epairs

/-! ### The bytes of a canonical packet (R62, R72) -/

/-- A packet has 38 bytes. -/
theorem byteAt_of_ge (p : Packet) {k : Nat} (hk : 38 ≤ k) : byteAt p k = 0 := by
  apply BitVec.eq_of_getLsbD_eq
  intro j hj
  simp [byteAt, BitVec.getLsbD_of_ge p (8 * k + j) (by omega)]

/-- Past the given bytes a packet is zero. -/
theorem byteAt_packetOfBytes_of_length_le {bs : List Byte} {k : Nat} (hk : bs.length ≤ k) :
    byteAt (packetOfBytes bs) k = 0 := by
  by_cases h : k < 38
  · rw [byteAt_packetOfBytes bs k h, List.getD_eq_default bs 0 hk]
  · exact byteAt_of_ge _ (by omega)

theorem getD_toList_append {α : Type} {n : Nat} (v : Vector α n) (l : List α) (d : α) (i : Fin n) :
    (v.toList ++ l).getD i d = v[i] := by
  simp [List.getD_eq_getElem?_getD, List.getElem?_append_left]

theorem getD_toList_append_add {α : Type} {n : Nat} (v : Vector α n) (l : List α) (d : α) (k : Nat) :
    (v.toList ++ l).getD (n + k) d = l.getD k d := by
  simp [List.getD_eq_getElem?_getD, List.getElem?_append_right]

/-- Pairs laid out one after another: pair k stands at the places 2k and 2k + 1. -/
theorem getD_flatMap_pair (l : List (Byte × Byte)) (k : Nat) :
    ((l.flatMap fun q => [q.1, q.2]).getD (2 * k) 0, (l.flatMap fun q => [q.1, q.2]).getD (2 * k + 1) 0) =
      l.getD k (0, 0) := by
  induction l generalizing k with
  | nil => simp
  | cons q l ih =>
    cases k with
    | zero => simp
    | succ k => simpa [Nat.mul_succ] using ih k

theorem encodeBytes_load (c : Cfg) :
    encodeBytes (.load c) = 0x01 :: 0x00 :: (c.sel.toList ++ (c.pos.toList ++ (c.ring.toList ++
      c.npairs :: c.pairs.toList.flatMap fun q => [q.1, q.2]))) := by
  simp [encodeBytes, encodeCfg, opcode]

theorem byteAt_encode_load_one (c : Cfg) : byteAt (encode (.load c)) 1 = 0x00 := by
  rw [encode, byteAt_packetOfBytes _ _ (by omega), encodeBytes_load]
  rfl

theorem byteAt_encode_load_sel (c : Cfg) (i : Fin 3) : byteAt (encode (.load c)) (2 + i) = c.sel[i] := by
  rw [encode, byteAt_packetOfBytes _ _ (by omega), encodeBytes_load, Nat.add_comm]
  exact getD_toList_append c.sel _ _ i

theorem byteAt_encode_load_pos (c : Cfg) (i : Fin 3) : byteAt (encode (.load c)) (5 + i) = c.pos[i] := by
  rw [encode, byteAt_packetOfBytes _ _ (by omega), encodeBytes_load, show 5 + i.val = 3 + i.val + 1 + 1 by omega,
    List.getD_cons_succ, List.getD_cons_succ, getD_toList_append_add]
  exact getD_toList_append c.pos _ _ i

theorem byteAt_encode_load_ring (c : Cfg) (i : Fin 3) : byteAt (encode (.load c)) (8 + i) = c.ring[i] := by
  rw [encode, byteAt_packetOfBytes _ _ (by omega), encodeBytes_load, show 8 + i.val = 3 + (3 + i.val) + 1 + 1 by omega,
    List.getD_cons_succ, List.getD_cons_succ, getD_toList_append_add, getD_toList_append_add]
  exact getD_toList_append c.ring _ _ i

/-- The tail of a `LOAD` packet: the pair count at byte 11, the pair bytes after it. -/
theorem byteAt_encode_load_tail (c : Cfg) {k : Nat} (hk : k < 27) :
    byteAt (encode (.load c)) (11 + k) =
      (c.npairs :: c.pairs.toList.flatMap fun q => [q.1, q.2]).getD k 0 := by
  rw [encode, byteAt_packetOfBytes _ _ (by omega), encodeBytes_load, show 11 + k = 3 + (3 + (3 + k)) + 1 + 1 by omega,
    List.getD_cons_succ, List.getD_cons_succ, getD_toList_append_add, getD_toList_append_add, getD_toList_append_add]

theorem byteAt_encode_load_npairs (c : Cfg) : byteAt (encode (.load c)) 11 = c.npairs :=
  byteAt_encode_load_tail c (k := 0) (by omega)

theorem byteAt_encode_load_pair (c : Cfg) (k : Fin 13) :
    (byteAt (encode (.load c)) (12 + 2 * k), byteAt (encode (.load c)) (13 + 2 * k)) = c.pairs[k] := by
  have hfirst := byteAt_encode_load_tail c (k := 2 * k + 1) (by omega)
  have hsecond := byteAt_encode_load_tail c (k := 2 * k + 1 + 1) (by omega)
  rw [show 12 + 2 * k.val = 11 + (2 * k + 1) by omega, show 13 + 2 * k.val = 11 + (2 * k + 1 + 1) by omega,
    hfirst, hsecond, List.getD_cons_succ, List.getD_cons_succ, getD_flatMap_pair]
  simp [List.getD_eq_getElem?_getD]

/-! ### Round trips -/

/-- The record of a canonical `LOAD` packet. -/
theorem decodeCfg_encode_load {c : Cfg} (hwf : c.wellFormed = true) : decodeCfg (encode (.load c)) = c :=
  decodeCfg_eq hwf (byteAt_encode_load_sel c) (byteAt_encode_load_pos c) (byteAt_encode_load_ring c)
    (byteAt_encode_load_npairs c) fun k _ => byteAt_encode_load_pair c k

theorem decode_encode {i : Instr} (hwf : i.wellFormed = true) : decode (encode i) = .ok i := by
  have hop := byteAt_encode_zero i
  cases i with
  | nop => exact decode_of_nop hop
  | load c => rw [decode_of_load hop, decodeCfg_encode_load hwf]
  | enc ch => rw [decode_of_enc hop, encode, byteAt_packetOfBytes _ _ (by omega)]; rfl
  | proc ch => rw [decode_of_proc hop, encode, byteAt_packetOfBytes _ _ (by omega)]; rfl

theorem wellFormed_of_decode {p : Packet} {i : Instr} (h : decode p = .ok i) : i.wellFormed = true := by
  obtain ⟨-, rfl⟩ | ⟨-, rfl⟩ | ⟨-, rfl⟩ | ⟨-, rfl⟩ := decode_ok_cases h
  · rfl
  · exact decodeCfg_wellFormed p
  · rfl
  · rfl

/-- Settles O8: each byte of the canonical packet is read back into the field it was written from; the pair slots that the
decoder reads as zeros are zero in a well-formed record. -/
theorem decodeEncodeRoundTrip : Obligations.DecodeEncodeRoundTrip :=
  fun _ hwf => decode_encode hwf

/-- Settles O9: an ignored pair slot is decoded as zeros, so the round trip of O8 applies to every decoded command. -/
theorem decodedCommandsAreCanonical : Obligations.DecodedCommandsAreCanonical := by
  intro p i h
  have hwf := wellFormed_of_decode h
  exact ⟨hwf, (decode_encode hwf).trans h.symm⟩

end Sys2Proof
end

