-- ==== Sys2Proof/Proofs/PacketFields.lean ====
section
/-! PROOFS. Which bits of a packet a command reads and which have no effect (30_encoding.md R62, R71, R72), and the fields of a
response packet (R70). -/
namespace Sys2Proof
open Sys2Proof.Machine

/-- The field of 8 bits from bit 8k on is byte k (00_scope.md R9). -/
theorem extractLsb'_eq_byteAt (p : Packet) {b k : Nat} (h : b = 8 * k) : p.extractLsb' b 8 = byteAt p k := by
  rw [h, byteAt]

/-- What an accepted packet does is decided by what it decodes to. -/
theorem runPacket_congr {p q : Packet} (h : decode p = decode q) (s : State) : runPacket p s = runPacket q s := by
  rw [runPacket, runPacket, h]

theorem runPacket_of_decode_ok {p : Packet} {i : Instr} (h : decode p = .ok i) (s : State) :
    runPacket p s = exec i s := by
  rw [runPacket, h]

theorem runPacket_of_decode_error {p : Packet} {e : DecodeError} (h : decode p = .error e) (s : State) :
    runPacket p s = .next (s.raise .illegalOp) := by
  rw [runPacket, h]

/-- Two `LOAD` packets that agree on the bytes the first one's record uses hold the same record (R72; log 12). -/
theorem decodeCfg_congr {p q : Packet} (hfields : ∀ k, 2 ≤ k → k ≤ 11 → byteAt p k = byteAt q k)
    (hpairs : ∀ k, k < 13 → (13 < (byteAt p 11).toNat ∨ k < (byteAt p 11).toNat) →
      byteAt p (12 + 2 * k) = byteAt q (12 + 2 * k) ∧ byteAt p (13 + 2 * k) = byteAt q (13 + 2 * k)) :
    decodeCfg p = decodeCfg q := by
  have hnpairs : byteAt p 11 = byteAt q 11 := hfields 11 (by omega) (by omega)
  refine decodeCfg_eq (decodeCfg_wellFormed q) (fun i => ?_) (fun i => ?_) (fun i => ?_) hnpairs fun k hused => ?_
  · rw [decodeCfg_sel]; exact hfields _ (by omega) (by omega)
  · rw [decodeCfg_pos]; exact hfields _ (by omega) (by omega)
  · rw [decodeCfg_ring]; exact hfields _ (by omega) (by omega)
  · rw [decodeCfg_npairs] at hused
    obtain ⟨hfirst, hsecond⟩ := hpairs k k.2 (by rwa [hnpairs])
    rw [decodeCfg_pairs, if_neg (by omega), hfirst, hsecond]

/-- Settles O10: by opcode, the decoded command is built from the bytes that agree; the canonical bytes of an ignored field are
past the end of the encoded bytes, or a zero pair of the record. -/
theorem ignoredFieldsHaveNoEffect : Obligations.IgnoredFieldsHaveNoEffect := by
  refine ⟨fun p q hop h => ?_, fun _ hk => byteAt_packetOfBytes_of_length_le hk,
    fun k ch hk => ⟨byteAt_packetOfBytes_of_length_le hk, byteAt_packetOfBytes_of_length_le hk⟩,
    fun c hwf => ⟨byteAt_encode_load_one c, fun k hk hcount hle => ?_⟩⟩
  · have hdec : decode p = decode q := by
      obtain h0 | ⟨h2 | h3, hch⟩ | ⟨h1, hfields, hpairs⟩ := h
      · rw [decode_of_nop h0, decode_of_nop (hop ▸ h0)]
      · rw [decode_of_enc h2, decode_of_enc (hop ▸ h2), hch]
      · rw [decode_of_proc h3, decode_of_proc (hop ▸ h3), hch]
      · rw [decode_of_load h1, decode_of_load (hop ▸ h1), decodeCfg_congr hfields hpairs]
    exact ⟨hdec, runPacket_congr hdec⟩
  · have hpair := byteAt_encode_load_pair c ⟨k, hk⟩
    rw [(Cfg.wellFormed_iff c).1 hwf ⟨k, hk⟩ hcount hle] at hpair
    exact Prod.mk.inj hpair

/-- Settles O5: each packet's opcode and operand bytes, read off the given bytes. -/
theorem knownPacketsDecode : Obligations.KnownPacketsDecode := by
  unfold Obligations.KnownPacketsDecode
  decide

/-- Settles O6: the decoder's cases on byte 0; an illegal opcode is only answered. -/
theorem opcodeByteDecides : Obligations.OpcodeByteDecides := fun _ =>
  ⟨decode_of_nop, fun h => ⟨_, decode_of_load h⟩, fun h => ⟨_, decode_of_enc h⟩, fun h => ⟨_, decode_of_proc h⟩,
    fun h => ⟨decode_of_illegal h, runPacket_of_decode_error (decode_of_illegal h)⟩⟩

/-- Settles O7: every field the decoder reads is a byte of the packet, and byte k stands at bit 8k. -/
theorem packetFieldsAtTheirBits : Obligations.PacketFieldsAtTheirBits := by
  intro p
  refine ⟨decode_of_enc, decode_of_proc, fun h => ⟨decodeCfg p, decode_of_load h, fun i => ⟨?_, ?_, ?_⟩, rfl, fun k => ?_⟩⟩
  · rw [decodeCfg_sel, extractLsb'_eq_byteAt]; omega
  · rw [decodeCfg_pos, extractLsb'_eq_byteAt]; omega
  · rw [decodeCfg_ring, extractLsb'_eq_byteAt]; omega
  · rw [decodeCfg_pairs, decodeCfg_npairs, extractLsb'_eq_byteAt p (k := 12 + 2 * k) (by omega),
      extractLsb'_eq_byteAt p (k := 13 + 2 * k) (by omega)]

/-! ### Responses (R70) -/

/-- `ENC` and `PROC` answer a character with status `OK` only. -/
theorem encipher_error_char (ch : Byte) (s : State) :
    ∃ t r, encipher ch s = .next t ∧ t.chan = .answered r ∧ (r.status ≠ .ok → r.char = 0x00) := by
  obtain ⟨-, heq⟩ | ⟨-, -, heq⟩ | ⟨x, -, -, heq⟩ := encipher_cases ch s
  · exact ⟨_, _, heq, rfl, fun _ => rfl⟩
  · exact ⟨_, _, heq, rfl, fun h => absurd rfl h⟩
  · exact ⟨_, _, heq, rfl, fun h => absurd rfl h⟩

/-- `LOAD` answers no character. -/
theorem execLoad_char (cfg : Cfg) (s : State) :
    ∃ t r, execLoad cfg s = .next t ∧ t.chan = .answered r ∧ r.char = 0x00 := by
  obtain ⟨sel, ps, -, heq⟩ | ⟨e, -, heq⟩ := execLoad_cases cfg s <;> exact ⟨_, _, heq, rfl, rfl⟩

/-- Only `ENC` and `PROC` answer a character, and only with status `OK`. -/
theorem runPacket_char (p : Packet) (s : State) :
    ∃ t r, runPacket p s = .next t ∧ t.chan = .answered r ∧
      (r.status ≠ .ok ∨ byteAt p 0 = 0x00 ∨ byteAt p 0 = 0x01 → r.char = 0x00) := by
  obtain ⟨i, hdec, hrun⟩ | ⟨e, -, hrun⟩ := runPacket_cases p s <;> rw [hrun]
  · obtain ⟨-, rfl⟩ | ⟨-, rfl⟩ | ⟨hop, rfl⟩ | ⟨hop, rfl⟩ := decode_ok_cases hdec
    · exact ⟨_, _, rfl, rfl, fun _ => rfl⟩
    · obtain ⟨t, r, hexec, hchan, hchar⟩ := execLoad_char (decodeCfg p) s
      exact ⟨t, r, hexec, hchan, fun _ => hchar⟩
    · obtain ⟨t, r, hexec, hchan, hchar⟩ := encipher_error_char (byteAt p 1) s
      exact ⟨t, r, hexec, hchan, by simpa [hop] using hchar⟩
    · obtain ⟨t, r, hexec, hchan, hchar⟩ := encipher_error_char (fold (byteAt p 1)) s
      exact ⟨t, r, hexec, hchan, by simpa [hop] using hchar⟩
  · exact ⟨_, _, rfl, rfl, fun _ => rfl⟩

/-- Settles O12: the packet is the status code above the character; the codes are finitely many. -/
theorem responsePacketFields : Obligations.ResponsePacketFields := by
  refine ⟨fun r => ⟨BitVec.extractLsb'_append_eq_right, BitVec.extractLsb'_append_eq_left⟩, rfl, fun st => ?_,
    runPacket_char⟩
  cases st <;> decide

end Sys2Proof
end

