-- ==== Sys2Proof/Proofs/AssemblerOutput.lean ====
section
/-! PROOFS. What the assembler emits is canonical (30_encoding.md R72, R74). -/
namespace Sys2Proof.Machine

/-- The record of an assembled `LOAD` has zeros in the slots its count ignores. -/
theorem cfgWith_wellFormed (sel pos ring : Vector Byte 3) (n : Byte) (ps : List (Byte × Byte)) :
    (cfgWith sel pos ring n ps).wellFormed = true := by
  rw [Cfg.wellFormed_iff]
  intro k hcount hk
  have hignored : Cfg.ignoresPair n k = true := (Cfg.ignoresPair_iff n k).2 ⟨hcount, hk⟩
  simp [cfgWith, hignored]

/-- The arguments of a `LOAD` line give a canonical command. -/
theorem loadArgs_wellFormed {l : List (List Nat)} {i : Instr} (h : loadArgs l = some i) : i.wellFormed = true := by
  unfold loadArgs at h
  split at h
  · split at h
    · split at h
      · cases h; exact cfgWith_wellFormed _ _ _ _ _
      · cases h
    · cases h
  · cases h

/-- The commands of a line: those of `LOAD` come from `loadArgs`, and no other carries a byte it ignores. -/
theorem assemble_wellFormed {line : String} {is : List Instr} (h : assemble line = some is) :
    ∀ i ∈ is, i.wellFormed = true := by
  unfold assemble at h
  dsimp only at h
  split at h
  · cases h; simp
  split at h
  · cases h; simp [Instr.wellFormed]
  split at h
  · obtain ⟨i, hi, rfl⟩ := Option.map_eq_some_iff.1 h
    simpa using loadArgs_wellFormed hi
  · obtain ⟨c, -, rfl⟩ := Option.map_eq_some_iff.1 h
    simp [Instr.wellFormed]
  · obtain ⟨c, -, rfl⟩ := Option.map_eq_some_iff.1 h
    simp [Instr.wellFormed]
  · obtain ⟨text, -, rfl⟩ := Option.map_eq_some_iff.1 h
    simp [encs, Instr.wellFormed]
  · obtain ⟨text, -, rfl⟩ := Option.map_eq_some_iff.1 h
    simp [procs, Instr.wellFormed]
  · cases h

end Sys2Proof.Machine

namespace Sys2Proof
open Sys2Proof.Machine

/-- Settles O11: only a `LOAD` carries bytes it ignores, and the assembler writes its record with zeros there. -/
theorem assemblerEmitsCanonicalCommands : Obligations.AssemblerEmitsCanonicalCommands :=
  fun _ _ h => assemble_wellFormed h

end Sys2Proof
end

