-- ==== Sys2Proof/Proofs/HostHandshake.lean ====
section
/-! PROOFS. The handshake of the two channels (30_encoding.md R60), and a host script run through it. -/
namespace Sys2Proof.Machine

/-! ### The step, by the host's next action -/

theorem step_of_issue {s : State} {p : Packet} {rest : List HostAction} (h : s.host = .issue p :: rest) :
    step s = issueStep p rest s := by
  simp only [step, hostStep, h]

theorem step_of_take {s : State} {rest : List HostAction} (h : s.host = .take :: rest) : step s = takeStep rest s := by
  simp only [step, hostStep, h]

theorem step_of_nil {s : State} (h : s.host = []) : step s = engineStep s := by
  simp only [step, hostStep, h]

/-! ### Commands do not see the host's side -/

/-- The state with another command channel and other host fields. -/
def State.withHostSide (s : State) (c : Channel) (host : List HostAction) (received : List Response) : State :=
  { s with chan := c, host := host, received := received }

@[simp] theorem State.withHostSide_sel (s : State) (c : Channel) (l : List HostAction) (rs : List Response) :
    (s.withHostSide c l rs).sel = s.sel := rfl
@[simp] theorem State.withHostSide_ring (s : State) (c : Channel) (l : List HostAction) (rs : List Response) :
    (s.withHostSide c l rs).ring = s.ring := rfl
@[simp] theorem State.withHostSide_pos (s : State) (c : Channel) (l : List HostAction) (rs : List Response) :
    (s.withHostSide c l rs).pos = s.pos := rfl
@[simp] theorem State.withHostSide_plug (s : State) (c : Channel) (l : List HostAction) (rs : List Response) :
    (s.withHostSide c l rs).plug = s.plug := rfl
@[simp] theorem State.withHostSide_configured (s : State) (c : Channel) (l : List HostAction) (rs : List Response) :
    (s.withHostSide c l rs).configured = s.configured := rfl
@[simp] theorem State.withHostSide_chan (s : State) (c : Channel) (l : List HostAction) (rs : List Response) :
    (s.withHostSide c l rs).chan = c := rfl
@[simp] theorem State.withHostSide_par (s : State) (c : Channel) (l : List HostAction) (rs : List Response) :
    (s.withHostSide c l rs).par = s.par := rfl
@[simp] theorem State.withHostSide_host (s : State) (c : Channel) (l : List HostAction) (rs : List Response) :
    (s.withHostSide c l rs).host = l := rfl
@[simp] theorem State.withHostSide_received (s : State) (c : Channel) (l : List HostAction) (rs : List Response) :
    (s.withHostSide c l rs).received = rs := rfl
@[simp] theorem State.withHostSide_free (s : State) (c : Channel) (l : List HostAction) (rs : List Response) :
    (s.withHostSide c l rs).free = s.free := rfl

/-- The stepper neither reads nor writes the host's side. -/
theorem State.stepRotors_withHostSide (s : State) (c : Channel) (l : List HostAction) (rs : List Response) :
    (s.withHostSide c l rs).stepRotors = s.stepRotors.withHostSide c l rs := by
  have hpos : (s.withHostSide c l rs).stepRotors.pos = s.stepRotors.pos := State.stepRotors_pos_congr rfl rfl rfl
  apply State.ext_fields <;> simp [hpos]

/-- On another host's side a keypress answers the same letter. -/
theorem State.keypress_withHostSide (s : State) (x : Letter) (c : Channel) (l : List HostAction) (rs : List Response) :
    (s.withHostSide c l rs).keypress x = (s.keypress x).withHostSide (s.keypress x).chan l rs := by
  simp only [State.keypress, State.stepRotors_withHostSide]
  rfl

theorem encipher_withHostSide {ch : Byte} {s t : State} (h : encipher ch s = .next t) (c : Channel)
    (l : List HostAction) (rs : List Response) :
    encipher ch (s.withHostSide c l rs) = .next (t.withHostSide t.chan l rs) := by
  obtain ⟨hconf, heq⟩ | ⟨hconf, hx, heq⟩ | ⟨x, hconf, hx, heq⟩ := encipher_cases ch s <;> rw [heq] at h <;> cases h
  · simp only [encipher, State.withHostSide_configured, hconf]; rfl
  · simp only [encipher, State.withHostSide_configured, hconf, hx]; rfl
  · simp only [encipher, State.withHostSide_configured, hconf, hx, State.keypress_withHostSide, if_true]

theorem execLoad_withHostSide {cfg : Cfg} {s t : State} (h : execLoad cfg s = .next t) (c : Channel)
    (l : List HostAction) (rs : List Response) :
    execLoad cfg (s.withHostSide c l rs) = .next (t.withHostSide t.chan l rs) := by
  obtain ⟨sel, ps, hval, heq⟩ | ⟨e, hval, heq⟩ := execLoad_cases cfg s <;> rw [heq] at h <;> cases h
  · simp only [execLoad, hval]; rfl
  · simp only [execLoad, hval]; rfl

/-- A command does on any channel and for any host what it does on these: it only puts its response on the channel. -/
theorem exec_withHostSide {i : Instr} {s t : State} (h : exec i s = .next t) (c : Channel) (l : List HostAction)
    (rs : List Response) : exec i (s.withHostSide c l rs) = .next (t.withHostSide t.chan l rs) := by
  cases i with
  | nop => cases h; rfl
  | load cfg => exact execLoad_withHostSide h c l rs
  | enc ch => exact encipher_withHostSide h c l rs
  | proc ch => exact encipher_withHostSide h c l rs

/-- A transcript leaves both channels empty and the host's next actions as they were. -/
theorem transcript_hostSide {is : List Instr} {s t : State} {rs : List Response} (hidle : s.chan = .idle)
    (h : transcript is s = some (rs, t)) : t.chan = .idle ∧ t.host = s.host := by
  induction is generalizing s rs with
  | nil => cases h; exact ⟨hidle, rfl⟩
  | cons i is ih =>
    obtain ⟨r, qs, u, -, hexec, -, htail⟩ := transcript_cons h
    obtain ⟨⟨-, hhost, -⟩, -⟩ := commandFrame i s u hexec
    exact (ih rfl htail).imp_right fun ht => ht.trans hhost

/-! ### A script run through the handshake -/

theorem run_succ_of_step {s t : State} (h : step s = .next t) (k : Nat) :
    Host.Core.run Sys2Proof.core (k + 1) s = Host.Core.run Sys2Proof.core k t := by
  have hcore : Sys2Proof.core.step s = .next t := h
  simp only [Host.Core.run, hcore]

/-- One command through the channels: accepted, executed, its response taken. -/
theorem run_issue_take {i : Instr} {s u : State} {r : Response} (hwf : i.wellFormed = true) (hexec : exec i s = .next u)
    (hchan : u.chan = .answered r) (l : List HostAction) (rs : List Response) (k : Nat) :
    Host.Core.run Sys2Proof.core (k + 3) (s.withHostSide .idle (.issue (encode i) :: .take :: l) rs) =
      Host.Core.run Sys2Proof.core k (u.withHostSide .idle l (rs ++ [r])) := by
  have haccept : step (s.withHostSide .idle (.issue (encode i) :: .take :: l) rs) =
      .next (s.withHostSide (.inFlight (encode i)) (.take :: l) rs) := step_of_issue rfl
  have hexecute : step (s.withHostSide (.inFlight (encode i)) (.take :: l) rs) =
      .next (u.withHostSide (.answered r) (.take :: l) rs) := by
    have hrun := runPacket_of_decode_ok (decode_encode hwf) (s.withHostSide (.inFlight (encode i)) (.take :: l) rs)
    rw [exec_withHostSide hexec, hchan] at hrun
    exact hrun
  have htake : step (u.withHostSide (.answered r) (.take :: l) rs) = .next (u.withHostSide .idle l (rs ++ [r])) :=
    step_of_take rfl
  rw [run_succ_of_step haccept, run_succ_of_step hexecute, run_succ_of_step htake]

/-- A script run through the channels gives the responses of the transcript, and its last state (R60, 20_memory.md R48). -/
theorem run_hostScript {is : List Instr} {s t : State} {rs : List Response} (hwf : ∀ i ∈ is, i.wellFormed = true)
    (h : transcript is s = some (rs, t)) (rest : List HostAction) (qs : List Response) :
    Host.Core.run Sys2Proof.core (3 * is.length) (s.withHostSide .idle (hostScript is ++ rest) qs) =
      .next (t.withHostSide .idle rest (qs ++ rs)) := by
  induction is generalizing s rs qs with
  | nil => cases h; simp [hostScript, Host.Core.run]
  | cons i is ih =>
    obtain ⟨r, rs', u, rfl, hexec, hchan, htail⟩ := transcript_cons h
    obtain ⟨hi, his⟩ := List.forall_mem_cons.1 hwf
    have hrest := ih his htail (qs ++ [r])
    rw [List.append_assoc] at hrest
    exact (run_issue_take hi hexec hchan (hostScript is ++ rest) qs (3 * is.length)).trans hrest

end Sys2Proof.Machine

namespace Sys2Proof
open Sys2Proof.Machine

/-- Settles O3: the commands do not see the host's side, so each round of accept, execute and take does to the registers what
the transcript's command does. -/
theorem scriptGivesOneResponsePerCommand : Obligations.ScriptGivesOneResponsePerCommand := by
  intro is rest s hwf hidle hhost
  obtain ⟨rs, t, htranscript, hlength⟩ := transcript_exists is { s with host := rest }
  refine ⟨rs, t, htranscript, hlength, ?_⟩
  have hrun := run_hostScript hwf htranscript rest s.received
  obtain ⟨htchan, (hthost : t.host = rest)⟩ := transcript_hostSide (s := { s with host := rest }) hidle htranscript
  have hstart : State.withHostSide { s with host := rest } .idle (hostScript is ++ rest) s.received = s := by
    rw [← hidle, ← hhost]; rfl
  have hend : t.withHostSide .idle rest (s.received ++ rs) = { t with received := s.received ++ rs } := by
    rw [← htchan, ← hthost]; rfl
  rw [hstart, hend] at hrun
  exact hrun

/-- Settles O2: the host's next action names the move, and the channel says whether it is ready. -/
theorem handshakeMovesOnlyWhenReady : Obligations.HandshakeMovesOnlyWhenReady := by
  intro s rest
  refine ⟨fun p hhost => ?_, fun hhost => ?_, fun hhost hidle => ?_⟩
  · rw [step_of_issue hhost]
    exact ⟨fun h => by simp only [issueStep, h], fun q h => by simp only [issueStep, engineStep, h],
      fun r h => by simp only [issueStep, h]⟩
  · rw [step_of_take hhost]
    exact ⟨fun r h => by simp only [takeStep, h], fun q h => by simp only [takeStep, engineStep, h],
      fun h => by simp only [takeStep, h]⟩
  · rw [step_of_nil hhost]
    simp only [engineStep, hidle]

end Sys2Proof
end

