-- ==== Sys2Proof/Proofs/AlphabetModulo.lean ====
section
/-! PROOFS. The modulo, and the letter functions over every byte (40_alphabet_modulo.md R81, R84 to R86). -/
namespace Sys2Proof.Machine

/-! ### The modulo (R81) -/

theorem mod_nonneg (n : Int) {m : Int} (hm : 0 < m) : 0 ≤ mod n m :=
  Int.emod_nonneg n hm.ne'

theorem mod_lt (n : Int) {m : Int} (hm : 0 < m) : mod n m < m :=
  Int.emod_lt_of_pos n hm

theorem dvd_sub_mod (n m : Int) : m ∣ n - mod n m :=
  Int.dvd_self_sub_emod

/-- Only one number of [0, m) differs from n by a multiple of m. -/
theorem eq_mod_of_dvd_sub {n m r : Int} (hr : 0 ≤ r) (hrm : r < m) (hdvd : m ∣ n - r) : r = mod n m := by
  have hcongr : r ≡ n [ZMOD m] := Int.modEq_iff_dvd.2 hdvd
  calc r = r % m := (Int.emod_eq_of_lt hr hrm).symm
    _ = mod n m := hcongr

/-- A truncating remainder lies above -m: with m added it is not negative, and truncating it again is the modulo. -/
theorem mod_eq_tmod_tmod_add (n : Int) {m : Int} (hm : 0 < m) : mod n m = Int.tmod (Int.tmod n m + m) m := by
  have hcongr : n.tmod m ≡ n [ZMOD m] := Int.modEq_iff_dvd.2 Int.dvd_self_sub_tmod
  have hnonneg : 0 ≤ n.tmod m + m := by
    have := Int.lt_tmod_of_pos n hm
    omega
  calc mod n m = n.tmod m % m := hcongr.symm
    _ = (n.tmod m + m) % m := (Int.add_emod_right _ _).symm
    _ = (n.tmod m + m).tmod m := (Int.tmod_eq_emod_of_nonneg hnonneg).symm

/-! ### Letters and folding (R84, R85) -/

theorem isLetter_iff (ch : Byte) : isLetter ch = true ↔ 0x41 ≤ ch.toNat ∧ ch.toNat ≤ 0x5A := by
  simp [isLetter]

/-- The fold as a function of the byte's number: the subtraction never wraps. -/
theorem toNat_fold (ch : Byte) :
    (fold ch).toNat = if 0x61 ≤ ch.toNat ∧ ch.toNat ≤ 0x7A then ch.toNat - 0x20 else ch.toNat := by
  simp only [fold, Bool.and_eq_true, decide_eq_true_eq]
  split
  case isTrue hlower =>
    have hle : 0x20#8 ≤ ch := by bv_omega
    exact BitVec.toNat_sub_of_le hle
  case isFalse => rfl

/-- A folded byte is no lower-case letter, so folding it again leaves it. -/
@[simp] theorem fold_fold (ch : Byte) : fold (fold ch) = fold ch := by
  apply BitVec.eq_of_toNat_eq
  have hnotLower : ¬(0x61 ≤ (fold ch).toNat ∧ (fold ch).toNat ≤ 0x7A) := by
    rw [toNat_fold ch]
    split <;> omega
  rw [toNat_fold (fold ch), if_neg hnotLower]

/-- Every letter has an index (R86). -/
theorem exists_charToIdx_of_isLetter {ch : Byte} (h : isLetter ch = true) : ∃ j, charToIdx ch = some j := by
  have hsome : charToIdx ch ≠ none := by simp [charToIdx_eq_none_iff, h]
  exact Option.ne_none_iff_exists'.1 hsome

end Sys2Proof.Machine

namespace Sys2Proof
open Sys2Proof.Machine

/-- Settles O14: the remainder of the Euclidean division has the bounds and the divisibility, and congruent numbers of
[0, m) are equal. -/
theorem moduloIsTrueModulo : Obligations.ModuloIsTrueModulo := fun n m hm =>
  ⟨⟨mod_nonneg n hm, mod_lt n hm, dvd_sub_mod n m⟩, fun _ => eq_mod_of_dvd_sub, mod_eq_tmod_tmod_add n hm⟩

/-- Settles O15: letters and folding are read off the byte's number, and the index of a letter gives the letter back. -/
theorem letterAndFoldBytes : Obligations.LetterAndFoldBytes := by
  intro ch
  refine ⟨isLetter_iff ch, toNat_fold ch, fold_fold ch, (charToIdx_eq_none_iff ch).2, fun hletter => ?_,
    fun j => ⟨isLetter_idxToChar j, charToIdx_idxToChar j⟩⟩
  obtain ⟨j, hj⟩ := exists_charToIdx_of_isLetter hletter
  obtain ⟨-, hval, hchar⟩ := charToIdx_eq_some hj
  exact ⟨j, hj, hval, hchar⟩

end Sys2Proof
end

