-- ==== Sys2Proof/Proofs/RotorStage.lean ====
section
/-! PROOFS. The rotor stage (41_rotor.md R91 to R96): writing and stepping one position, the notch, the substitution as a
function of the shift modulo 26, and the inverse law. -/
namespace Sys2Proof.Machine

/-! ### Writing the position of one slot, and stepping it (R91) -/

theorem State.setPos_pos_self (s : State) (i : Slot) (v : Idx) : (s.setPos i v).pos[i] = v := by simp

theorem State.setPos_setPos (s : State) (i : Slot) (v w : Idx) : (s.setPos i v).setPos i w = s.setPos i w := by
  simp [State.setPos]

theorem State.setPos_pos_eq_self (s : State) (i : Slot) : s.setPos i s.pos[i] = s := by
  simp [State.setPos]

theorem State.stepSlot_pos_self_val (s : State) (i : Slot) : (s.stepSlot i).pos[i].val = (s.pos[i].val + 1) % 26 := by
  rw [State.stepSlot_eq_stepIf, State.stepIf_pos_val, if_pos rfl, if_pos rfl]

theorem State.stepSlot_pos_of_ne (s : State) {i j : Slot} (h : j ≠ i) : (s.stepSlot i).pos[j] = s.pos[j] := by
  apply Fin.ext
  rw [State.stepSlot_eq_stepIf, State.stepIf_pos_val, if_neg h.symm]

/-- Reducing in between does not change a sum modulo 26. -/
theorem modIdx_modIdx_add (a b : Int) : modIdx ((modIdx a).val + b) = modIdx (a + b) := by
  rw [modIdx_val]
  exact modIdx_eq_of_emod (Int.emod_add_emod a 26 b)

/-- k steps of a slot are one write of its position. -/
theorem State.iterate_stepSlot (s : State) (i : Slot) (k : Nat) :
    (fun u => State.stepSlot u i)^[k] s = s.setPos i (modIdx (s.pos[i].val + k)) := by
  induction k with
  | zero =>
    rw [Function.iterate_zero_apply, Nat.cast_zero, add_zero, modIdx_coe, State.setPos_pos_eq_self]
  | succ k ih =>
    rw [Function.iterate_succ_apply', ih, State.stepSlot, State.setPos_setPos, State.setPos_pos_self,
      modIdx_modIdx_add, Nat.cast_succ, add_assoc]

/-- A whole turn: 26 steps give back the position, and nothing else was written. -/
theorem State.iterate_stepSlot_26 (s : State) (i : Slot) : (fun u => State.stepSlot u i)^[26] s = s := by
  have hturn : modIdx (s.pos[i].val + (26 : Nat)) = s.pos[i] :=
    (modIdx_eq_of_emod (Int.add_emod_right _ 26)).trans (modIdx_coe _)
  rw [State.iterate_stepSlot, hturn, State.setPos_pos_eq_self]

/-! ### The notch (R92) -/

theorem State.atNotch_iff (s : State) (i : Slot) : s.atNotch i = true ↔ s.pos[i] = s.notch i :=
  beq_iff_eq

theorem State.setPos_atNotch_iff (s : State) (i : Slot) (p : Idx) :
    (s.setPos i p).atNotch i = true ↔ p = s.notch i := by
  rw [State.atNotch_iff, State.setPos_pos_self]
  rfl

/-! ### The shift (R93) -/

theorem State.shift_bounds (s : State) (i : Slot) : -25 ≤ s.shift i ∧ s.shift i ≤ 25 := by
  have hpos := s.pos[i].isLt
  have hring := s.ring[i].isLt
  unfold State.shift
  omega

theorem modIdx_add_congr {m n : Int} (h : mod m 26 = mod n 26) (a : Int) : modIdx (a + m) = modIdx (a + n) :=
  modIdx_eq_of_emod (Int.ModEq.add_left a h)

theorem modIdx_sub_congr {m n : Int} (h : mod m 26 = mod n 26) (a : Int) : modIdx (a - m) = modIdx (a - n) :=
  modIdx_eq_of_emod (Int.ModEq.sub_left a h)

theorem State.wiring_congr {s t : State} {i : Slot} (hpar : s.par = t.par) (hsel : s.sel[i] = t.sel[i]) :
    s.wiring i = t.wiring i := by
  simp only [State.wiring, hpar, hsel]

theorem State.wiringInv_congr {s t : State} {i : Slot} (hpar : s.par = t.par) (hsel : s.sel[i] = t.sel[i]) :
    s.wiringInv i = t.wiringInv i := by
  simp only [State.wiringInv, hpar, hsel]

/-- `forward` reads the wiring and the shift modulo 26 (R94). -/
theorem State.forward_congr {s t : State} {i : Slot} (hwiring : s.wiring i = t.wiring i)
    (hshift : mod (s.shift i) 26 = mod (t.shift i) 26) (c : Letter) : s.forward i c = t.forward i c := by
  rw [State.forward_eq, State.forward_eq, hwiring, modIdx_add_congr hshift, modIdx_sub_congr hshift]

/-- `backward` reads the inverse wiring and the shift modulo 26 (R95). -/
theorem State.backward_congr {s t : State} {i : Slot} (hwiring : s.wiringInv i = t.wiringInv i)
    (hshift : mod (s.shift i) 26 = mod (t.shift i) 26) (c : Letter) : s.backward i c = t.backward i c := by
  rw [State.backward_eq, State.backward_eq, hwiring, modIdx_add_congr hshift, modIdx_sub_congr hshift]

/-! ### The inverse law (R96) -/

/-- Entering backward, the shift that forward took off last is added again, the inverse wiring undoes the wiring, and the
shift that forward added first is taken off. -/
theorem State.backward_forward {s : State} (h : s.par.wellFormed = true) (i : Slot) (c : Letter) :
    s.backward i (s.forward i c) = c := by
  rw [State.backward_eq, State.forward_eq, modIdx_sub_add, State.wiringInv_wiring h, modIdx_add_sub]

theorem State.forward_backward {s : State} (h : s.par.wellFormed = true) (i : Slot) (c : Letter) :
    s.forward i (s.backward i c) = c := by
  rw [State.forward_eq, State.backward_eq, modIdx_sub_add, State.wiring_wiringInv h, modIdx_add_sub]

end Sys2Proof.Machine

namespace Sys2Proof
open Sys2Proof.Machine

/-- Settles O16: one step is read off the position's number, and 26 steps are one write of the old position. -/
theorem stepSlotAddsOne : Obligations.StepSlotAddsOne := fun s i =>
  ⟨s.stepSlot_pos_self_val i, fun _ hj => s.stepSlot_pos_of_ne hj, rfl, s.iterate_stepSlot_26 i⟩

/-- Settles O17: a position written to the slot is at notch when it is the slot's notch, which no position or ring moves. -/
theorem atNotchReadsPositionAlone : Obligations.AtNotchReadsPositionAlone := by
  refine ⟨fun s i => ⟨s.atNotch_iff i, fun _ => rfl, ?_⟩, rfl, rfl, rfl⟩
  exact ⟨s.notch i, (s.setPos_atNotch_iff i _).2 rfl, fun q => (s.setPos_atNotch_iff i q).1⟩

/-- Settles O18: equal parameters and selectors give equal wirings; beside them only the shift modulo 26 is read. -/
theorem substitutionReadsShiftAlone : Obligations.SubstitutionReadsShiftAlone := fun s _ i hpar hsel =>
  ⟨s.shift_bounds i, fun hshift c => ⟨State.forward_congr (State.wiring_congr hpar hsel) hshift c,
    State.backward_congr (State.wiringInv_congr hpar hsel) hshift c⟩⟩

/-- Settles O19: the two directions add and take off the same shift around tables that are inverse to each other. -/
theorem rotorInverseLaw : Obligations.RotorInverseLaw := fun _ i c hwf =>
  ⟨State.backward_forward hwf i c, State.forward_backward hwf i c⟩

end Sys2Proof
end

