-- ==== Sys2Proof/Proofs/PlugboardTable.lean ====
section
/-! PROOFS. The plugboard table of a valid pair list read as the exchange of the paired letters: it agrees with D0's scan of
the list (42_plugboard.md R104), and both answer the partner of a paired letter and leave every other letter (R101). -/
namespace Sys2Proof.Machine

/-- The letters of a pair list are the letters with a partner. -/
theorem mem_pairLetters_iff {ps : List (Idx × Idx)} {c : Idx} :
    c ∈ pairLetters ps ↔ ∃ d, (c, d) ∈ ps ∨ (d, c) ∈ ps := by
  simp only [pairLetters, List.mem_flatMap, Prod.exists, List.mem_pair]
  constructor
  · rintro ⟨a, b, hab, rfl | rfl⟩
    · exact ⟨b, .inl hab⟩
    · exact ⟨a, .inr hab⟩
  · rintro ⟨d, hcd | hdc⟩
    · exact ⟨c, d, hcd, .inl rfl⟩
    · exact ⟨d, c, hdc, .inr rfl⟩

/-! ### The scan -/

/-- The scan passes over a pair that does not hold the letter. -/
theorem scanPairs_cons_of_ne {a b c : Idx} (ps : List (Idx × Idx)) (ha : c ≠ a) (hb : c ≠ b) :
    scanPairs ((a, b) :: ps) c = scanPairs ps c := by
  rw [scanPairs, if_neg ha, if_neg hb]

/-- The scan answers a letter that is in no pair with itself. -/
theorem scanPairs_of_not_mem {ps : List (Idx × Idx)} {c : Idx} (hc : c ∉ pairLetters ps) : scanPairs ps c = c := by
  induction ps with
  | nil => rfl
  | cons p ps ih =>
    obtain ⟨a, b⟩ := p
    simp only [pairLetters_cons, List.mem_cons, not_or] at hc
    obtain ⟨ha, hb, hc⟩ := hc
    rw [scanPairs_cons_of_ne ps ha hb, ih hc]

/-- The scan of a valid list answers a paired letter with its partner, on whichever side of the pair the letter stands: no
pair before theirs holds it. -/
theorem scanPairs_of_pair {ps : List (Idx × Idx)} {c d : Idx} (hv : validPairs ps) (h : (c, d) ∈ ps ∨ (d, c) ∈ ps) :
    scanPairs ps c = d := by
  induction ps with
  | nil => simp at h
  | cons p ps ih =>
    obtain ⟨a, b⟩ := p
    obtain ⟨hab, hna, hnb, hv'⟩ := (validPairs_cons a b ps).1 hv
    simp only [List.mem_cons, Prod.mk.injEq, or_or_or_comm] at h
    obtain (⟨rfl, rfl⟩ | ⟨rfl, rfl⟩) | htail := h
    · simp [scanPairs]
    · simp [scanPairs, hab.symm]
    · have hc : c ∈ pairLetters ps := mem_pairLetters_iff.2 ⟨d, htail⟩
      rw [scanPairs_cons_of_ne ps (ne_of_mem_of_not_mem hc hna) (ne_of_mem_of_not_mem hc hnb), ih hv' htail]

/-! ### The table -/

/-- Tables with the same entries are equal. -/
theorem table_ext {t u : Table} (h : ∀ c, memRead t c = memRead u c) : t = u :=
  Vector.ext fun i hi => h ⟨i, hi⟩

/-- Plugging pairs leaves every letter that is in none of them. -/
theorem memRead_foldl_plugPair_of_not_mem {ps : List (Idx × Idx)} {c : Idx} (hc : c ∉ pairLetters ps) (t : Table) :
    memRead (ps.foldl plugPair t) c = memRead t c := by
  induction ps generalizing t with
  | nil => rfl
  | cons p ps ih =>
    obtain ⟨a, b⟩ := p
    simp only [pairLetters_cons, List.mem_cons, not_or] at hc
    obtain ⟨ha, hb, hc⟩ := hc
    rw [List.foldl_cons, ih hc, memRead_plugPair, if_neg hb, if_neg ha]

/-- Plugging a valid list sends a letter that is still its own image where the scan sends it: the pair that holds the letter
writes its entry, and no later pair holds it again. -/
theorem memRead_foldl_plugPair {ps : List (Idx × Idx)} {t : Table} {c : Idx} (hv : validPairs ps)
    (ht : memRead t c = c) : memRead (ps.foldl plugPair t) c = scanPairs ps c := by
  induction ps generalizing t with
  | nil => exact ht
  | cons p ps ih =>
    obtain ⟨a, b⟩ := p
    obtain ⟨hab, hna, hnb, hv'⟩ := (validPairs_cons a b ps).1 hv
    rw [List.foldl_cons]
    by_cases ha : c = a
    · subst ha
      rw [memRead_foldl_plugPair_of_not_mem hna, memRead_plugPair]
      simp [scanPairs, hab]
    by_cases hb : c = b
    · subst hb
      rw [memRead_foldl_plugPair_of_not_mem hnb, memRead_plugPair]
      simp [scanPairs, ha]
    · rw [scanPairs_cons_of_ne ps ha hb]
      exact ih hv' (by rw [memRead_plugPair, if_neg hb, if_neg ha, ht])

/-- The table lookup is the scan (R104). -/
theorem memRead_buildPlug {ps : List (Idx × Idx)} (hv : validPairs ps) (c : Letter) :
    memRead (buildPlug ps) c = scanPairs ps c :=
  memRead_foldl_plugPair hv (memRead_identityTable c)

/-- The table depends on which letters are paired only, not on an order (R101). -/
theorem buildPlug_eq_of_same_pairs {ps qs : List (Idx × Idx)} (hp : validPairs ps) (hq : validPairs qs)
    (h : ∀ a b, (a, b) ∈ qs ∨ (b, a) ∈ qs ↔ (a, b) ∈ ps ∨ (b, a) ∈ ps) : buildPlug qs = buildPlug ps := by
  refine table_ext fun c => ?_
  rw [memRead_buildPlug hq, memRead_buildPlug hp]
  have hsame : c ∈ pairLetters qs ↔ c ∈ pairLetters ps := by simp only [mem_pairLetters_iff, h]
  by_cases hc : c ∈ pairLetters ps
  · obtain ⟨d, hd⟩ := mem_pairLetters_iff.1 hc
    rw [scanPairs_of_pair hq ((h c d).2 hd), scanPairs_of_pair hp hd]
  · rw [scanPairs_of_not_mem (mt hsame.1 hc), scanPairs_of_not_mem hc]

/-- A `LOAD` that leaves a configured engine has plugged a validated list. -/
theorem exec_load_configured {cfg : Cfg} {s t : State} (h : exec (.load cfg) s = .next t) (hconf : t.configured = true) :
    ∃ sel ps, validate cfg = .ok (sel, ps) ∧ t.plug = buildPlug ps := by
  obtain ⟨sel, ps, hval, heq⟩ | ⟨e, -, heq⟩ := execLoad_cases cfg s <;> rw [exec_load, heq] at h <;> cases h
  · exact ⟨sel, ps, hval, by simp⟩
  · simp at hconf

end Sys2Proof.Machine

namespace Sys2Proof
open Sys2Proof.Machine

/-- Settles O20: the table is the scan, which answers the partner of a paired letter and leaves every other; so equal pairs
give equal tables. -/
theorem buildPlugExchangesPairs : Obligations.BuildPlugExchangesPairs := by
  refine fun ps hv => ⟨fun a b hab => ⟨?_, ?_⟩, fun c hc => ?_, fun qs hq h => buildPlug_eq_of_same_pairs hv hq h⟩
  · exact (memRead_buildPlug hv a).trans (scanPairs_of_pair hv (.inl hab))
  · exact (memRead_buildPlug hv b).trans (scanPairs_of_pair hv (.inr hab))
  · exact (memRead_buildPlug hv c).trans (scanPairs_of_not_mem hc)

/-- Settles O21: the letters being different, at most one pair writes an entry, and it is the pair the scan stops at. -/
theorem plugTableAgreesWithScan : Obligations.PlugTableAgreesWithScan :=
  fun _ c hv => memRead_buildPlug hv c

/-- Settles O22: only a validated list is plugged, and its table is an involution. -/
theorem loadedPlugboardIsInvolution : Obligations.LoadedPlugboardIsInvolution := by
  intro cfg s t h hconf c
  obtain ⟨sel, ps, hval, hplug⟩ := exec_load_configured h hconf
  rw [State.swap, State.swap, hplug]
  exact buildPlug_involutive_of_validate hval c

end Sys2Proof
end

