-- ==== Sys2Proof/Proofs/ReflectorInvolution.lean ====
section
/-! PROOFS. The reflector as a function on letters: the check on its table (00_scope.md R8) read off as an involution that
moves every letter (43_reflector.md R109), and the default parameters pass the check. -/
namespace Sys2Proof.Machine

/-- Reflecting twice reads the table at its own entry, where the check has the letter itself. -/
theorem reflect_reflect {p : Params} (h : p.wellFormed = true) (c : Letter) : reflect p (reflect p c) = c :=
  (((Params.wellFormed_iff p).1 h).2 c).1

theorem reflect_ne {p : Params} (h : p.wellFormed = true) (c : Letter) : reflect p c ≠ c :=
  (((Params.wellFormed_iff p).1 h).2 c).2

/-- Reset installs the default parameters, and the invariant it meets has them well formed. -/
theorem defaultParams_wellFormed : defaultParams.wellFormed = true := by
  obtain ⟨hpar, -⟩ : State.reset.Inv := resetMeetsMachineInvariant
  exact hpar

end Sys2Proof.Machine

namespace Sys2Proof
open Sys2Proof.Machine

/-- Settles O23: the check on the reflector's table is the law of its lookup, and the default table passes it. -/
theorem reflectorInvolutionWithoutFixedPoint : Obligations.ReflectorInvolutionWithoutFixedPoint :=
  ⟨fun _ c hwf => ⟨reflect_reflect hwf c, reflect_ne hwf c⟩, defaultParams_wellFormed⟩

end Sys2Proof
end

