-- ==== Sys2Proof/Proofs/SteppingRules.lean ====
section
/-! PROOFS. The two stepping rules as functions on positions (44_stepper_fsm.md R114, R117), and how the slots move over many
keypresses under the numbered rule (R115, R116). -/
namespace Sys2Proof.Machine

/-! ### One keypress -/

theorem State.stepRotors_of_numbered {s : State} (h : s.par.stepRule = .numbered) :
    s.stepRotors = ((s.stepIf (s.atNotch 2 || s.atNotch 1) 0).stepIf (s.atNotch 2) 1).stepSlot 2 := by
  simp only [State.stepRotors, h]

theorem State.stepRotors_of_historical {s : State} (h : s.par.stepRule = .historical) :
    s.stepRotors = ((s.stepIf (s.atNotch 1) 0).stepIf (s.atNotch 2 || s.atNotch 1) 1).stepSlot 2 := by
  simp only [State.stepRotors, h]

/-- Either rule is this move, with its own conditions: left and middle on a condition, right always. Each slot steps once at
most, so its position is read off the state before the keypress. -/
theorem State.stepThree_pos_val (s : State) (left middle : Bool) :
    (((s.stepIf left 0).stepIf middle 1).stepSlot 2).pos[0].val = (s.pos[0].val + if left then 1 else 0) % 26 ∧
    (((s.stepIf left 0).stepIf middle 1).stepSlot 2).pos[1].val = (s.pos[1].val + if middle then 1 else 0) % 26 ∧
    (((s.stepIf left 0).stepIf middle 1).stepSlot 2).pos[2].val = (s.pos[2].val + 1) % 26 := by
  have hslot (j : Slot) := State.stepIf_pos_val ((s.stepIf left 0).stepIf middle 1) true 2 j
  simp only [← State.stepSlot_eq_stepIf, State.stepIf_pos_val] at hslot
  exact ⟨hslot 0, hslot 1, hslot 2⟩

theorem State.stepRotors_eq_with_pos (s : State) : s.stepRotors = { s with pos := s.stepRotors.pos } := by
  apply State.ext_fields <;> simp

/-- The right slot steps on every keypress, under either rule (R115 (a)). -/
theorem State.stepRotors_right_val (s : State) : s.stepRotors.pos[2].val = (s.pos[2].val + 1) % 26 := by
  cases h : s.par.stepRule with
  | numbered =>
    obtain ⟨-, -, hright⟩ := s.stepThree_pos_val (s.atNotch 2 || s.atNotch 1) (s.atNotch 2)
    rw [State.stepRotors_of_numbered h, hright]
  | historical =>
    obtain ⟨-, -, hright⟩ := s.stepThree_pos_val (s.atNotch 1) (s.atNotch 2 || s.atNotch 1)
    rw [State.stepRotors_of_historical h, hright]

theorem State.numbered_left_val {s : State} (h : s.par.stepRule = .numbered) :
    s.stepRotors.pos[0].val = (s.pos[0].val + if s.atNotch 2 = true ∨ s.atNotch 1 = true then 1 else 0) % 26 := by
  obtain ⟨hleft, -⟩ := s.stepThree_pos_val (s.atNotch 2 || s.atNotch 1) (s.atNotch 2)
  rw [State.stepRotors_of_numbered h, hleft]
  simp only [Bool.or_eq_true]

theorem State.numbered_middle_val {s : State} (h : s.par.stepRule = .numbered) :
    s.stepRotors.pos[1].val = (s.pos[1].val + if s.atNotch 2 = true then 1 else 0) % 26 := by
  obtain ⟨-, hmiddle, -⟩ := s.stepThree_pos_val (s.atNotch 2 || s.atNotch 1) (s.atNotch 2)
  rw [State.stepRotors_of_numbered h, hmiddle]

theorem State.historical_left_val {s : State} (h : s.par.stepRule = .historical) :
    s.stepRotors.pos[0].val = (s.pos[0].val + if s.atNotch 1 = true then 1 else 0) % 26 := by
  obtain ⟨hleft, -⟩ := s.stepThree_pos_val (s.atNotch 1) (s.atNotch 2 || s.atNotch 1)
  rw [State.stepRotors_of_historical h, hleft]

theorem State.historical_middle_val {s : State} (h : s.par.stepRule = .historical) :
    s.stepRotors.pos[1].val = (s.pos[1].val + if s.atNotch 2 = true ∨ s.atNotch 1 = true then 1 else 0) % 26 := by
  obtain ⟨-, hmiddle, -⟩ := s.stepThree_pos_val (s.atNotch 1) (s.atNotch 2 || s.atNotch 1)
  rw [State.stepRotors_of_historical h, hmiddle]
  simp only [Bool.or_eq_true]

/-- A move by one modulo 26 is a move (R115 (b)). -/
theorem State.numbered_middle_moves_iff {s : State} (h : s.par.stepRule = .numbered) :
    s.stepRotors.pos[1] ≠ s.pos[1] ↔ s.atNotch 2 = true := by
  have hval := State.numbered_middle_val h
  have hlt := s.pos[1].isLt
  rw [Ne, Fin.ext_iff, hval]
  by_cases hright : s.atNotch 2 = true
  · exact iff_of_true (by rw [if_pos hright]; omega) hright
  · exact iff_of_false (by rw [if_neg hright]; omega) hright

/-! ### Many keypresses -/

@[simp] theorem State.iterate_stepRotors_par (s : State) (k : Nat) : (State.stepRotors^[k] s).par = s.par := by
  induction k with
  | zero => rfl
  | succ k ih => rw [Function.iterate_succ_apply', State.stepRotors_par, ih]

theorem State.numbered_iterate {s : State} (h : s.par.stepRule = .numbered) (k : Nat) :
    (State.stepRotors^[k] s).par.stepRule = .numbered := by
  rw [State.iterate_stepRotors_par, h]

@[simp] theorem State.iterate_stepRotors_sel (s : State) (k : Nat) : (State.stepRotors^[k] s).sel = s.sel := by
  induction k with
  | zero => rfl
  | succ k ih => rw [Function.iterate_succ_apply', State.stepRotors_sel, ih]

@[simp] theorem State.iterate_stepRotors_notch (s : State) (k : Nat) (i : Slot) :
    (State.stepRotors^[k] s).notch i = s.notch i :=
  State.notch_congr (s.iterate_stepRotors_par k) (s.iterate_stepRotors_sel k) i

theorem State.iterate_stepRotors_right_val (s : State) (k : Nat) :
    (State.stepRotors^[k] s).pos[2].val = (s.pos[2].val + k) % 26 := by
  induction k with
  | zero => exact (Nat.mod_eq_of_lt s.pos[2].isLt).symm
  | succ k ih => rw [Function.iterate_succ_apply', State.stepRotors_right_val, ih, Nat.mod_add_mod, Nat.add_assoc]

/-- The right slot alone says on which keypresses the middle slot moves. -/
theorem State.numbered_iterate_middle_moves_iff {s : State} (h : s.par.stepRule = .numbered) (k : Nat) :
    (State.stepRotors^[k + 1] s).pos[1] ≠ (State.stepRotors^[k] s).pos[1] ↔
      (s.pos[2].val + k) % 26 = (s.notch 2).val := by
  rw [Function.iterate_succ_apply', State.numbered_middle_moves_iff (State.numbered_iterate h k), State.atNotch_iff,
    State.iterate_stepRotors_notch, Fin.ext_iff, ← State.iterate_stepRotors_right_val]
  rfl

/-- The 26 keypresses of one turn of the right slot, from the position after its notch: the middle slot stays until the last
of them. -/
theorem State.numbered_iterate_middle_stays {s : State} (h : s.par.stepRule = .numbered)
    (hright : s.pos[2].val = ((s.notch 2).val + 1) % 26) {k : Nat} (hk : k ≤ 25) :
    (State.stepRotors^[k] s).pos[1] = s.pos[1] := by
  induction k with
  | zero => rfl
  | succ k ih =>
    have hstay := mt (State.numbered_iterate_middle_moves_iff h k).1 (by have := (s.notch 2).isLt; omega)
    exact (not_not.1 hstay).trans (ih (by omega))

/-- In that turn a middle slot at its notch stays there, until the last of the keypresses (R115 (c)). -/
theorem State.numbered_iterate_middle_atNotch {s : State} (h : s.par.stepRule = .numbered)
    (hright : s.pos[2].val = ((s.notch 2).val + 1) % 26) (hmiddle : s.atNotch 1 = true) {k : Nat} (hk : k ≤ 25) :
    (State.stepRotors^[k] s).atNotch 1 = true := by
  rw [State.atNotch_iff, State.iterate_stepRotors_notch]
  exact (State.numbered_iterate_middle_stays h hright hk).trans ((s.atNotch_iff 1).1 hmiddle)

theorem State.numbered_iterate_middle_leaves {s : State} (h : s.par.stepRule = .numbered)
    (hright : s.pos[2].val = ((s.notch 2).val + 1) % 26) (hmiddle : s.atNotch 1 = true) :
    (State.stepRotors^[26] s).atNotch 1 = false := by
  have hmoves := (State.numbered_iterate_middle_moves_iff h 25).2 (by have := (s.notch 2).isLt; omega)
  rw [State.numbered_iterate_middle_stays h hright le_rfl] at hmoves
  rw [← Bool.not_eq_true, State.atNotch_iff, State.iterate_stepRotors_notch, ← (s.atNotch_iff 1).1 hmiddle]
  exact hmoves

/-- While the middle slot is at its notch the left slot steps. -/
theorem State.numbered_iterate_left_val {s : State} (h : s.par.stepRule = .numbered)
    (hright : s.pos[2].val = ((s.notch 2).val + 1) % 26) (hmiddle : s.atNotch 1 = true) {k : Nat} (hk : k ≤ 26) :
    (State.stepRotors^[k] s).pos[0].val = (s.pos[0].val + k) % 26 := by
  induction k with
  | zero => exact (Nat.mod_eq_of_lt s.pos[0].isLt).symm
  | succ k ih =>
    have hnotch := State.numbered_iterate_middle_atNotch h hright hmiddle (k := k) (by omega)
    rw [Function.iterate_succ_apply', State.numbered_left_val (State.numbered_iterate h k), if_pos (.inr hnotch), ih (by omega),
      Nat.mod_add_mod, Nat.add_assoc]

end Sys2Proof.Machine

namespace Sys2Proof
open Sys2Proof.Machine

/-- Settles O24: each slot steps at most once, so the snapshot decides its position. -/
theorem numberedStepping : Obligations.NumberedStepping := fun s h =>
  ⟨State.numbered_left_val h, State.numbered_middle_val h, s.stepRotors_right_val, s.stepRotors_eq_with_pos⟩

/-- Settles O25: as for the numbered rule, with the conditions of the left and the middle slot exchanged. -/
theorem historicalStepping : Obligations.HistoricalStepping := fun s h =>
  ⟨State.historical_left_val h, State.historical_middle_val h, s.stepRotors_right_val, s.stepRotors_eq_with_pos⟩

/-- Settles O26: the right slot is back at its notch after 26 keypresses and not before. -/
theorem middleMovesOnceIn26 : Obligations.MiddleMovesOnceIn26 := by
  intro s h
  refine ⟨State.numbered_middle_moves_iff h, fun hright => ?_⟩
  have hnotch : s.pos[2].val = (s.notch 2).val := congrArg Fin.val ((s.atNotch_iff 2).1 hright)
  have hlt := (s.notch 2).isLt
  refine ⟨fun k hk1 hk25 => ?_, (State.numbered_iterate_middle_moves_iff h 26).2 (by omega)⟩
  exact not_not.1 (mt (State.numbered_iterate_middle_moves_iff h k).1 (by omega))

/-- Settles O27: the middle slot stays at its notch for one turn of the right slot, and the left slot steps meanwhile. -/
theorem leftRunsWhileMiddleAtNotch : Obligations.LeftRunsWhileMiddleAtNotch := fun _ h hright hmiddle =>
  ⟨fun _ => State.numbered_iterate_left_val h hright hmiddle,
    fun _ => State.numbered_iterate_middle_atNotch h hright hmiddle,
    State.numbered_iterate_middle_leaves h hright hmiddle⟩

end Sys2Proof
end

