-- ==== Sys2Proof/Proofs/SteppingCycle.lean ====
section
/-! PROOFS. The cycle of the numbered rule (44_stepper_fsm.md R115 (d)): a number below 17576 that the positions determine and
that determines them, and that every keypress raises by one modulo 17576. -/
namespace Sys2Proof.Machine

/-- How far a slot stands past the position after its notch: 25 at the notch. -/
def State.pastNotch (s : State) (i : Slot) : Nat := (s.pos[i].val + 25 - (s.notch i).val) % 26

theorem State.pastNotch_lt (s : State) (i : Slot) : s.pastNotch i < 26 :=
  Nat.mod_lt _ (by decide)

theorem State.atNotch_iff_pastNotch (s : State) (i : Slot) : s.atNotch i = true ↔ s.pastNotch i = 25 := by
  have hpos := s.pos[i].isLt
  have hnotch := (s.notch i).isLt
  rw [State.atNotch_iff, Fin.ext_iff, State.pastNotch]
  omega

theorem State.pos_eq_of_pastNotch_eq {s t : State} {i : Slot} (hnotch : s.notch i = t.notch i)
    (h : s.pastNotch i = t.pastNotch i) : s.pos[i] = t.pos[i] := by
  have hs := s.pos[i].isLt
  have ht := t.pos[i].isLt
  have hlt := (t.notch i).isLt
  rw [State.pastNotch, State.pastNotch, hnotch] at h
  apply Fin.ext
  omega

/-- A slot that steps by `n` stands `n` further past its notch. -/
theorem State.pastNotch_stepRotors {s : State} {i : Slot} {n : Nat}
    (h : s.stepRotors.pos[i].val = (s.pos[i].val + n) % 26) : s.stepRotors.pastNotch i = (s.pastNotch i + n) % 26 := by
  have hnotch : s.stepRotors.notch i = s.notch i := State.notch_congr s.stepRotors_par s.stepRotors_sel i
  have hlt := (s.notch i).isLt
  rw [State.pastNotch, State.pastNotch, hnotch, h]
  omega

/-- The place on the cycle of a right slot `r` and a middle slot `m` past their notches and a left slot at `l`. Right and middle
are its low digits in base 26. Its high digit counts the whole turns of the middle slot: each moves the left slot by 51 steps,
that is one back modulo 26, and since the last whole turn the left slot has stepped `m` times with the middle slot, and on each
of the `r` last keypresses when the middle slot stands at its notch. -/
def cycleIndex (l m r : Nat) : Nat := 676 * ((m + (if m = 25 then r else 0) + 26 - l) % 26) + 26 * m + r

/-- The place of the positions on the cycle. -/
def State.cyclePlace (s : State) : Nat := cycleIndex s.pos[0].val (s.pastNotch 1) (s.pastNotch 2)

theorem cycleIndex_lt {l m r : Nat} (hm : m < 26) (hr : r < 26) : cycleIndex l m r < 17576 := by
  unfold cycleIndex
  omega

/-- The digits can be read off the place. -/
theorem cycleIndex_injective {l m r l' m' r' : Nat} (hl : l < 26) (hm : m < 26) (hr : r < 26) (hl' : l' < 26) (hm' : m' < 26)
    (hr' : r' < 26) (h : cycleIndex l m r = cycleIndex l' m' r') : l = l' ∧ m = m' ∧ r = r' := by
  unfold cycleIndex at h
  obtain rfl : r = r' := by omega
  obtain rfl : m = m' := by omega
  exact ⟨by omega, rfl, rfl⟩

/-- The numbered rule in these coordinates (R114) adds one to the place. -/
theorem cycleIndex_succ {l m r : Nat} (hl : l < 26) (hm : m < 26) (hr : r < 26) :
    cycleIndex ((l + if r = 25 ∨ m = 25 then 1 else 0) % 26) ((m + if r = 25 then 1 else 0) % 26) ((r + 1) % 26) =
      (cycleIndex l m r + 1) % 17576 := by
  unfold cycleIndex
  obtain rfl | hright := eq_or_ne r 25
  · obtain rfl | hmiddle := eq_or_ne m 25
    · -- a whole turn of the middle slot ends: both low digits go back to 0
      simp only [if_true, true_or, Nat.reduceAdd, Nat.reduceMod, OfNat.zero_ne_ofNat, if_false]
      omega
    · -- the right digit carries: left and middle step together
      simp only [if_true, true_or, Nat.reduceAdd, Nat.reduceMod, ite_self, if_neg hmiddle]
      omega
  · obtain rfl | hmiddle := eq_or_ne m 25
    · -- the left slot steps with the right slot
      simp only [if_true, or_true, if_neg hright, Nat.add_zero, Nat.reduceMod]
      omega
    · -- only the right slot steps
      simp only [hright, hmiddle, or_self, if_false, Nat.add_zero, Nat.mod_eq_of_lt hm]
      omega

theorem State.cyclePlace_lt (s : State) : s.cyclePlace < 17576 :=
  cycleIndex_lt (s.pastNotch_lt 1) (s.pastNotch_lt 2)

theorem State.cyclePlace_stepRotors {s : State} (h : s.par.stepRule = .numbered) :
    s.stepRotors.cyclePlace = (s.cyclePlace + 1) % 17576 := by
  have hright := State.pastNotch_stepRotors (i := 2) s.stepRotors_right_val
  have hmiddle := State.pastNotch_stepRotors (i := 1) (State.numbered_middle_val h)
  have hsucc := cycleIndex_succ s.pos[0].isLt (s.pastNotch_lt 1) (s.pastNotch_lt 2)
  simp only [← State.atNotch_iff_pastNotch] at hsucc
  rw [State.cyclePlace, hright, hmiddle, State.numbered_left_val h, hsucc, State.cyclePlace]

theorem State.cyclePlace_iterate {s : State} (h : s.par.stepRule = .numbered) (k : Nat) :
    (State.stepRotors^[k] s).cyclePlace = (s.cyclePlace + k) % 17576 := by
  induction k with
  | zero => exact (Nat.mod_eq_of_lt s.cyclePlace_lt).symm
  | succ k ih =>
    rw [Function.iterate_succ_apply', State.cyclePlace_stepRotors (State.numbered_iterate h k), ih, Nat.mod_add_mod,
      Nat.add_assoc]

/-- Engines with the same notches are at the same positions when they are at the same place. -/
theorem State.pos_eq_of_cyclePlace_eq {s t : State} (hpar : s.par = t.par) (hsel : s.sel = t.sel)
    (h : s.cyclePlace = t.cyclePlace) : s.pos = t.pos := by
  obtain ⟨hleft, hmiddle, hright⟩ := cycleIndex_injective s.pos[0].isLt (s.pastNotch_lt 1) (s.pastNotch_lt 2)
    t.pos[0].isLt (t.pastNotch_lt 1) (t.pastNotch_lt 2) h
  have hslot (i : Slot) : s.pos[i] = t.pos[i] := by
    match i with
    | 0 => exact Fin.ext hleft
    | 1 => exact State.pos_eq_of_pastNotch_eq (State.notch_congr hpar hsel 1) hmiddle
    | 2 => exact State.pos_eq_of_pastNotch_eq (State.notch_congr hpar hsel 2) hright
  exact Vector.ext fun j hj => hslot ⟨j, hj⟩

end Sys2Proof.Machine

namespace Sys2Proof
open Sys2Proof.Machine

/-- Settles O28: as many keypresses as the target's place is ahead on the cycle. -/
theorem steppingIsOneCycle : Obligations.SteppingIsOneCycle := by
  intro s t hpar hrule hsel
  refine ⟨(t.cyclePlace + 17576 - s.cyclePlace) % 17576, Nat.mod_lt _ (by decide), ?_⟩
  apply State.pos_eq_of_cyclePlace_eq
  · rw [State.iterate_stepRotors_par, hpar]
  · rw [State.iterate_stepRotors_sel, hsel]
  · have hs := s.cyclePlace_lt
    have ht := t.cyclePlace_lt
    rw [State.cyclePlace_iterate hrule]
    omega

end Sys2Proof
end

