-- ==== Sys2Proof/Proofs/KeypressCount.lean ====
section
/-! PROOFS. Over a list of commands without a `LOAD` the positions are those of the stepper, run once for every keypress
(44_stepper_fsm.md R112, R118). -/
namespace Sys2Proof.Machine

theorem keypresses_cons_of_none {i : Instr} (h : keyLetter i = none) (is : List Instr) :
    keypresses (i :: is) = keypresses is := by
  simp [keypresses, h]

theorem keypresses_cons_of_some {i : Instr} {x : Letter} (h : keyLetter i = some x) (is : List Instr) :
    keypresses (i :: is) = keypresses is + 1 := by
  simp [keypresses, h]

/-- In a configured engine a command with a letter is a keypress of that letter (R112). -/
theorem exec_of_keyLetter {i : Instr} {x : Letter} {s : State} (hconf : s.configured = true) (hx : keyLetter i = some x) :
    exec i s = .next (s.keypress x) := by
  cases i with
  | nop => cases hx
  | load cfg => cases hx
  | enc ch => rw [exec_enc, encipher, if_pos hconf, show charToIdx ch = some x from hx]
  | proc ch => rw [exec_proc, encipher, if_pos hconf, show charToIdx (fold ch) = some x from hx]

/-- Runs of the stepper read the parameters, `SEL` and `POS` alone. -/
theorem State.iterate_stepRotors_pos_congr {s t : State} (hpar : s.par = t.par) (hsel : s.sel = t.sel) (hpos : s.pos = t.pos)
    (k : Nat) : (State.stepRotors^[k] s).pos = (State.stepRotors^[k] t).pos := by
  induction k with
  | zero => exact hpos
  | succ k ih =>
    rw [Function.iterate_succ_apply', Function.iterate_succ_apply']
    exact State.stepRotors_pos_congr (by simpa using hpar) (by simpa using hsel) ih

/-- The stepper runs once for every keypress, and for nothing else. -/
theorem transcript_pos {is : List Instr} {s t : State} {rs : List Response} (hconf : s.configured = true)
    (hload : ∀ i ∈ is, isLoad i = false) (h : transcript is s = some (rs, t)) :
    t.pos = (State.stepRotors^[keypresses is] s).pos := by
  induction is generalizing s rs with
  | nil => cases h; rfl
  | cons i is ih =>
    obtain ⟨r, qs, u, -, hexec, -, htail⟩ := transcript_cons h
    obtain ⟨hi, his⟩ := List.forall_mem_cons.1 hload
    obtain ⟨⟨hpar, -⟩, hframe⟩ := commandFrame i s u hexec
    obtain ⟨hsel, -, -, hconfu, -, hpos⟩ := hframe hi
    have hrest := ih (s := { u with chan := .idle }) (hconfu.trans hconf) his htail
    cases hx : keyLetter i with
    | none =>
      rw [keypresses_cons_of_none hx, hrest]
      exact State.iterate_stepRotors_pos_congr (s := { u with chan := .idle }) hpar hsel (hpos (.inl hx)) _
    | some x =>
      rw [exec_of_keyLetter hconf hx] at hexec
      cases hexec
      rw [keypresses_cons_of_some hx, Function.iterate_succ_apply, hrest]
      exact State.iterate_stepRotors_pos_congr (by simp) (by simp) (by simp) _

end Sys2Proof.Machine

namespace Sys2Proof
open Sys2Proof.Machine

/-- Settles O29: both lists run the stepper equally often, and the stepper reads nothing in which the two engines differ. -/
theorem positionsCountKeypresses : Obligations.PositionsCountKeypresses := by
  intro is js s t s' t' rs qs hs ht hpar hsel hpos his hjs hcount hrun hrun'
  have hspos := transcript_pos hs his hrun
  have htpos := transcript_pos ht hjs hrun'
  refine ⟨?_, hspos⟩
  rw [hspos, htpos, hcount]
  exact State.iterate_stepRotors_pos_congr hpar hsel hpos _

end Sys2Proof
end

