-- ==== Sys2Proof/Proofs/LoadCommand.lean ====
section
/-! PROOFS. `LOAD` (45_datapath_commands.md R122 to R124): the check that decides its status, the machine a legal record
constructs, and that the outcome is a function of the record. -/
namespace Sys2Proof.Machine

theorem execLoad_of_validate_ok {cfg : Cfg} {sel : Vector Sel 3} {ps : List (Idx × Idx)}
    (h : validate cfg = .ok (sel, ps)) (s : State) :
    execLoad cfg s = .next ((s.commit cfg sel ps).respond .ok 0x00) := by
  rw [execLoad, h]

theorem execLoad_of_validate_error {cfg : Cfg} {e : Status} (h : validate cfg = .error e) (s : State) :
    execLoad cfg s = .next (s.failLoad e) := by
  rw [execLoad, h]

/-! ### The selectors and the pair count -/

theorem selFields_ok_of_le {v : Vector Byte 3} (h : ∀ i : Slot, v[i].toNat ≤ 2) : ∃ sel, selFields v = .ok sel := by
  obtain ⟨sel, hok, -⟩ | ⟨-, i, hi⟩ := selFields_cases v
  · exact ⟨sel, hok⟩
  · exact absurd (h i) (by omega)

theorem selFields_error_of_lt {v : Vector Byte 3} {i : Slot} (h : 2 < v[i].toNat) : selFields v = .error .selRange := by
  obtain ⟨sel, -, hval⟩ | ⟨herr, -⟩ := selFields_cases v
  · have hi := hval i
    have hlt := sel[i].isLt
    omega
  · exact herr

theorem validate_selRange {cfg : Cfg} {i : Slot} (h : 2 < cfg.sel[i].toNat) : validate cfg = .error .selRange := by
  rw [validate, selFields_error_of_lt h]

theorem validate_plugCount {cfg : Cfg} (hsel : ∀ i : Slot, cfg.sel[i].toNat ≤ 2) (hn : 13 < cfg.npairs.toNat) :
    validate cfg = .error .plugCount := by
  obtain ⟨sel, hok⟩ := selFields_ok_of_le hsel
  rw [validate, hok]
  exact if_pos hn

theorem validate_of_checkPairs_error {cfg : Cfg} {e : Status} (hsel : ∀ i : Slot, cfg.sel[i].toNat ≤ 2)
    (hn : cfg.npairs.toNat ≤ 13) (h : checkPairs [] (usedPairs cfg) = .error e) : validate cfg = .error e := by
  obtain ⟨sel, hok⟩ := selFields_ok_of_le hsel
  have hcount : ¬ zext8 cfg.npairs > 13 := not_lt.2 hn
  simp only [validate, hok, if_neg hcount, h]

/-! ### The first pair that fails -/

theorem checkPairs_nonletter {pa pb : Byte} (h : pairLetter pa = none ∨ pairLetter pb = none) (used : List Idx)
    (rest : List (Byte × Byte)) : checkPairs used ((pa, pb) :: rest) = .error .plugNonletter := by
  obtain ha | hb := h
  · simp only [checkPairs, ha]
  · cases ha : pairLetter pa <;> simp only [checkPairs, ha, hb]

theorem checkPairs_self {pa pb : Byte} {a : Idx} (ha : pairLetter pa = some a) (hb : pairLetter pb = some a)
    (used : List Idx) (rest : List (Byte × Byte)) : checkPairs used ((pa, pb) :: rest) = .error .plugSelf := by
  simp only [checkPairs, ha, hb, if_true]

theorem checkPairs_reuse {pa pb : Byte} {a b : Idx} {used : List Idx} (ha : pairLetter pa = some a)
    (hb : pairLetter pb = some b) (hab : a ≠ b) (hused : a ∈ used ∨ b ∈ used) (rest : List (Byte × Byte)) :
    checkPairs used ((pa, pb) :: rest) = .error .plugReuse := by
  simp only [checkPairs, ha, hb, if_neg hab, if_pos hused]

/-- A pair that passes: the answer is an error when the pairs after it fail. -/
theorem checkPairs_cons_error {pa pb : Byte} {a b : Idx} {used : List Idx} {rest : List (Byte × Byte)} {e : Status}
    (ha : pairLetter pa = some a) (hb : pairLetter pb = some b) (hab : a ≠ b) (hused : ¬ (a ∈ used ∨ b ∈ used))
    (h : checkPairs (a :: b :: used) rest = .error e) : checkPairs used ((pa, pb) :: rest) = .error e := by
  simp only [checkPairs, ha, hb, if_neg hab, if_neg hused, h]

/-- After a valid list of unused letters the checks go on with its letters among the used ones, so what fails there decides
the status of the whole list (R123: the pairs in list order). -/
theorem checkPairs_append_error {raw tail : List (Byte × Byte)} {ps : List (Idx × Idx)} {used : List Idx} {e : Status}
    (hreads : readsAsPairs raw ps) (hv : validPairs ps) (hfresh : ∀ c ∈ pairLetters ps, c ∉ used)
    (htail : ∀ used', used ⊆ used' → pairLetters ps ⊆ used' → checkPairs used' tail = .error e) :
    checkPairs used (raw ++ tail) = .error e := by
  induction raw generalizing ps used with
  | nil =>
    cases ps with
    | nil => exact htail used (List.Subset.refl used) (List.nil_subset used)
    | cons p ps => simp [readsAsPairs] at hreads
  | cons q raw ih =>
    cases ps with
    | nil => simp [readsAsPairs] at hreads
    | cons p ps =>
      obtain ⟨⟨pa, pb⟩, a, b⟩ := q, p
      obtain ⟨ha, hb, hreads'⟩ := (readsAsPairs_cons _ _ _ _).1 hreads
      obtain ⟨hab, hna, hnb, hv'⟩ := (validPairs_cons a b ps).1 hv
      simp only [pairLetters_cons, List.forall_mem_cons] at hfresh
      obtain ⟨hau, hbu, hfresh'⟩ := hfresh
      refine checkPairs_cons_error ha hb hab (not_or.2 ⟨hau, hbu⟩) (ih hreads' hv' (fun c hc => ?_) fun used' hused hps => ?_)
      · have hca : c ≠ a := ne_of_mem_of_not_mem hc hna
        have hcb : c ≠ b := ne_of_mem_of_not_mem hc hnb
        simp [hca, hcb, hfresh' c hc]
      · obtain ⟨hau', hused'⟩ := List.cons_subset.1 hused
        obtain ⟨hbu', hused''⟩ := List.cons_subset.1 hused'
        exact htail used' hused'' (List.cons_subset.2 ⟨hau', List.cons_subset.2 ⟨hbu', hps⟩⟩)

/-- The pairs a record uses, cut at one of them. -/
theorem usedPairs_eq_append {cfg : Cfg} {k : Fin 13} (hk : k.val < cfg.npairs.toNat) :
    usedPairs cfg = (usedPairs cfg).take k ++ cfg.pairs[k] :: (usedPairs cfg).drop (k + 1) := by
  have hlt : k.val < (usedPairs cfg).length := by
    simp only [usedPairs, zext8, List.length_take, Vector.length_toList]
    omega
  have hget : (usedPairs cfg)[k.val] = cfg.pairs[k] := by simp [usedPairs]
  rw [← hget, ← List.drop_eq_getElem_cons hlt, List.take_append_drop]

/-- A pair that fails after all letters of the pairs before it are used decides the status of the record. -/
theorem validate_of_pair_error {cfg : Cfg} {k : Fin 13} {ps : List (Idx × Idx)} {e : Status}
    (hsel : ∀ i : Slot, cfg.sel[i].toNat ≤ 2) (hn : cfg.npairs.toNat ≤ 13) (hk : k.val < cfg.npairs.toNat)
    (hreads : readsAsPairs ((usedPairs cfg).take k) ps) (hv : validPairs ps)
    (hfail : ∀ used rest, pairLetters ps ⊆ used → checkPairs used (cfg.pairs[k] :: rest) = .error e) :
    validate cfg = .error e := by
  apply validate_of_checkPairs_error hsel hn
  rw [usedPairs_eq_append hk]
  exact checkPairs_append_error hreads hv (by simp) fun used _ hps => hfail used _ hps

/-! ### The outcome -/

theorem answersWith_load_of_error {cfg : Cfg} {e : Status} (h : validate cfg = .error e) (s : State) :
    answersWith (exec (.load cfg) s) ⟨0x00, e⟩ :=
  ⟨s.failLoad e, execLoad_of_validate_error h s, rfl⟩

/-- A legal record is committed with its own selectors and its own pair list (R124). -/
theorem exec_load_of_legal {cfg : Cfg} {ps : List (Idx × Idx)} (h : legalRecord cfg ps) :
    ∃ sel : Vector Sel 3, (∀ i : Slot, sel[i].val = cfg.sel[i].toNat) ∧
      ∀ s, exec (.load cfg) s = .next ((s.commit cfg sel ps).respond .ok 0x00) := by
  obtain ⟨sel, hval, hsel⟩ := validate_of_legal h
  exact ⟨sel, hsel, execLoad_of_validate_ok hval⟩

/-- A stored position or ring is the true modulo of the signed field (30_encoding.md R66). -/
theorem normField_val (v : Byte) : ((normField v).val : Int) = mod v.toInt 26 :=
  modIdx_val _

end Sys2Proof.Machine

namespace Sys2Proof
open Sys2Proof.Machine

/-- Settles O31: a legal record passes validation and is committed, whatever the state. -/
theorem legalLoadConstructsMachine : Obligations.LegalLoadConstructsMachine := by
  intro s cfg ps hlegal
  obtain ⟨sel, hsel, hexec⟩ := exec_load_of_legal hlegal
  refine ⟨_, hexec s, fun i => ⟨hsel i, ?_, ?_⟩, rfl, rfl, rfl, rfl, rfl, rfl, rfl⟩
  · simpa using normField_val cfg.pos[i]
  · simpa using normField_val cfg.ring[i]

/-- Settles O32: each check is reached when those before it pass; the pairs before the failing one leave their letters used. -/
theorem loadReportsFirstFailedCheck : Obligations.LoadReportsFirstFailedCheck := by
  intro s cfg
  refine ⟨?_, fun hsel hn => ?_, fun hsel hn k ps hk hreads hv => ⟨fun hnone => ?_, fun a ha hb => ?_,
    fun a b ha hb hab hreuse => ?_⟩, fun ps hlegal => ?_⟩
  · rintro ⟨i, hi⟩
    exact answersWith_load_of_error (validate_selRange hi) s
  · exact answersWith_load_of_error (validate_plugCount hsel hn) s
  · have hval := validate_of_pair_error hsel hn hk hreads hv fun used rest _ => checkPairs_nonletter hnone used rest
    exact answersWith_load_of_error hval s
  · have hval := validate_of_pair_error hsel hn hk hreads hv fun used rest _ => checkPairs_self ha hb used rest
    exact answersWith_load_of_error hval s
  · have hval := validate_of_pair_error hsel hn hk hreads hv fun used rest hps =>
      checkPairs_reuse ha hb hab (hreuse.imp (@hps a) (@hps b)) rest
    exact answersWith_load_of_error hval s
  · obtain ⟨sel, -, hexec⟩ := exec_load_of_legal hlegal
    exact ⟨_, hexec s, rfl⟩

/-- Settles O34: validation reads the record alone, and a success writes every register from the record. -/
theorem loadDoesNotReadOldState : Obligations.LoadDoesNotReadOldState := by
  intro cfg s s' t t' h h'
  rw [exec_load] at h h'
  obtain ⟨sel, ps, hval, heq⟩ | ⟨e, hval, heq⟩ := execLoad_cases cfg s <;> rw [heq] at h <;> cases h
  · rw [execLoad_of_validate_ok hval] at h'
    cases h'
    simp
  · rw [execLoad_of_validate_error hval] at h'
    cases h'
    simp

end Sys2Proof
end

