-- ==== Sys2Proof/Proofs/SubstitutionPath.lean ====
section
/-! PROOFS. `NOP`, `ENC` and `PROC` case by case (45_datapath_commands.md R121, R125 to R128), and the substitution path as the
reflector conjugated by rotors and plugboard: an involution that moves every letter (R131, R132). -/
namespace Sys2Proof.Machine

/-! ### The cases of `ENC` and `PROC` -/

theorem encipher_of_unconfigured {s : State} (h : s.configured = false) (ch : Byte) :
    encipher ch s = .next (s.raise .notConfigured) := by
  simp [encipher, h]

theorem encipher_of_not_letter {s : State} {ch : Byte} (hconf : s.configured = true) (h : isLetter ch = false) :
    encipher ch s = .next (s.respond .ok ch) := by
  rw [encipher, if_pos hconf, (charToIdx_eq_none_iff ch).2 h]

theorem encipher_of_letter {s : State} {ch : Byte} {x : Letter} (hconf : s.configured = true) (h : charToIdx ch = some x) :
    encipher ch s = .next (s.keypress x) := by
  rw [encipher, if_pos hconf, h]

/-- A keypress writes the positions and the response only. -/
theorem State.keypress_eq (s : State) (x : Letter) :
    s.keypress x = { s with pos := s.stepRotors.pos, chan := .answered ⟨idxToChar (s.stepRotors.subst x), .ok⟩ } := by
  apply State.ext_fields <;> simp

theorem not_isLetter_of_lower {ch : Byte} (h : 0x61 ≤ ch.toNat) : isLetter ch = false := by
  rw [← Bool.not_eq_true, isLetter_iff]
  omega

/-! ### The substitution path -/

/-- The way in: right, middle, left. -/
def State.rotorsIn (s : State) (c : Letter) : Letter := s.forward 0 (s.forward 1 (s.forward 2 c))

/-- The way out: left, middle, right. -/
def State.rotorsOut (s : State) (c : Letter) : Letter := s.backward 2 (s.backward 1 (s.backward 0 c))

theorem State.subst_eq (s : State) (x : Letter) :
    s.subst x = s.swap (s.rotorsOut (reflect s.par (s.rotorsIn (s.swap x)))) := rfl

theorem State.rotorsOut_rotorsIn {s : State} (h : s.par.wellFormed = true) (c : Letter) :
    s.rotorsOut (s.rotorsIn c) = c := by
  simp only [State.rotorsOut, State.rotorsIn, State.backward_forward h]

theorem State.rotorsIn_rotorsOut {s : State} (h : s.par.wellFormed = true) (c : Letter) :
    s.rotorsIn (s.rotorsOut c) = c := by
  simp only [State.rotorsOut, State.rotorsIn, State.forward_backward h]

theorem State.Inv.par_wellFormed {s : State} (h : s.Inv) : s.par.wellFormed = true := by
  obtain ⟨hpar, -⟩ := h
  exact hpar

theorem State.Inv.swap_swap {s : State} (h : s.Inv) (hconf : s.configured = true) (c : Letter) : s.swap (s.swap c) = c := by
  obtain ⟨-, hplug⟩ := h
  exact hplug hconf c

/-- Substituting twice: plugboard, rotors and reflector undo themselves from the inside out. -/
theorem State.subst_subst {s : State} (h : s.Inv) (hconf : s.configured = true) (x : Letter) :
    s.subst (s.subst x) = x := by
  have hpar := h.par_wellFormed
  rw [State.subst_eq, State.subst_eq, h.swap_swap hconf, State.rotorsIn_rotorsOut hpar, reflect_reflect hpar,
    State.rotorsOut_rotorsIn hpar, h.swap_swap hconf]

/-- A letter sent to itself would be, past plugboard and rotors, a letter that the reflector leaves. -/
theorem State.subst_ne {s : State} (h : s.Inv) (hconf : s.configured = true) (x : Letter) : s.subst x ≠ x := by
  have hpar := h.par_wellFormed
  intro hfix
  have hout : s.rotorsOut (reflect s.par (s.rotorsIn (s.swap x))) = s.swap x := by
    rw [← h.swap_swap hconf (s.rotorsOut _), ← State.subst_eq, hfix]
  have hrefl : reflect s.par (s.rotorsIn (s.swap x)) = s.rotorsIn (s.swap x) := by
    rw [← State.rotorsIn_rotorsOut hpar (reflect _ _), hout]
  exact reflect_ne hpar _ hrefl

/-- The stepper keeps the invariant: it writes positions only. -/
theorem State.Inv.stepRotors {s : State} (h : s.Inv) : s.stepRotors.Inv :=
  h.of_kept (by simp) (by simp) (by simp)

end Sys2Proof.Machine

namespace Sys2Proof
open Sys2Proof.Machine

/-- Settles O30: `NOP` only answers, and opcode 0x00 is `NOP`. -/
theorem nopAnswersOkAndChangesNothing : Obligations.NopAnswersOkAndChangesNothing :=
  ⟨fun _ => rfl, fun _ hop => decode_of_nop hop⟩

/-- Settles O35: the path is the substitution read at the stepped positions. -/
theorem encStepsThenSubstitutes : Obligations.EncStepsThenSubstitutes := by
  intro s ch
  refine ⟨fun hconf => encipher_of_unconfigured hconf ch, encipher_of_not_letter, fun x hconf hx => ?_⟩
  refine ⟨s.stepRotors, _, _, rfl, rfl, rfl, ?_⟩
  rw [exec_enc, encipher_of_letter hconf hx, State.keypress_eq, State.subst_eq, State.stepRotors_par]
  rfl

/-- Settles O36: a lower-case letter is no letter either. -/
theorem encPassesNonLetters : Obligations.EncPassesNonLetters := fun _ _ hconf =>
  ⟨encipher_of_not_letter hconf, fun hlow _ => encipher_of_not_letter hconf (not_isLetter_of_lower hlow)⟩

/-- Settles O37: the cases of `ENC` for the folded byte, which is the byte itself when it is no letter. -/
theorem procEnciphersFoldedByte : Obligations.ProcEnciphersFoldedByte := by
  intro s ch
  refine ⟨rfl, fun hconf => encipher_of_unconfigured hconf _, fun hconf hch => ?_, fun x hconf hx => ?_⟩
  · rw [exec_proc, encipher_of_not_letter hconf hch, fold_of_not_letter hch]
    rfl
  · rw [exec_proc, encipher_of_letter hconf hx, State.keypress_eq]

/-- Settles O40: both keypresses step to the same positions, where the substitution is an involution. -/
theorem encipheringIsInvolution : Obligations.EncipheringIsInvolution := by
  intro s x hinv hconf
  have hexec (z : Letter) : exec (.enc (idxToChar z)) s = .next (s.keypress z) :=
    encipher_of_letter hconf (charToIdx_idxToChar z)
  have hback : s.stepRotors.subst (s.stepRotors.subst x) = x := State.subst_subst hinv.stepRotors (by simpa using hconf) x
  refine ⟨s.keypress x, s.stepRotors.subst x, hexec x, by simp, ?_⟩
  rw [hexec, State.keypress_eq, State.keypress_eq, hback]

/-- Settles O41: the substitution at the stepped positions moves every letter. -/
theorem noLetterEnciphersToItself : Obligations.NoLetterEnciphersToItself := by
  intro s ch hinv hconf
  refine ⟨fun hletter => ?_, fun hother => ⟨_, encipher_of_not_letter hconf hother, rfl⟩⟩
  obtain ⟨x, hx⟩ := exists_charToIdx_of_isLetter hletter
  obtain ⟨-, -, hchar⟩ := charToIdx_eq_some hx
  refine ⟨idxToChar (s.stepRotors.subst x), ⟨_, encipher_of_letter hconf hx, by simp⟩, by simp, fun heq => ?_⟩
  have hfix : s.stepRotors.subst x = x := idxToChar_injective (heq.trans hchar.symm)
  exact State.subst_ne hinv.stepRotors (by simpa using hconf) x hfix

end Sys2Proof
end

