-- ==== Sys2Proof/Proofs/ProcessedText.lean ====
section
/-! PROOFS. Texts through a configured engine (45_datapath_commands.md R128, R130, R132 to R134): one `OK` response a byte, other
bytes in place, and the round trip of two engines with one configuration. -/
namespace Sys2Proof.Machine

/-! ### Transcripts and answers -/

/-- Every response of a transcript is its command's answer in some state that has a property which the commands keep. -/
theorem transcript_getElem? {P : State → Prop} {is : List Instr} {s t : State} {rs : List Response}
    (hkeep : ∀ i ∈ is, ∀ u v, P u → exec i u = .next v → P { v with chan := .idle }) (hs : P s)
    (h : transcript is s = some (rs, t)) {k : Nat} {i : Instr} {r : Response} (hi : is[k]? = some i)
    (hr : rs[k]? = some r) : ∃ u, P u ∧ answersWith (exec i u) r := by
  induction is generalizing s rs k with
  | nil => simp at hi
  | cons j is ih =>
    obtain ⟨q, qs, v, rfl, hexec, hchan, htail⟩ := transcript_cons h
    obtain ⟨hj, his⟩ := List.forall_mem_cons.1 hkeep
    cases k with
    | zero =>
      cases hi
      cases hr
      exact ⟨s, hs, v, hexec, hchan⟩
    | succ k => exact ih his (hj s v hs hexec) htail hi hr

theorem transcript_length {is : List Instr} {s t : State} {rs : List Response} (h : transcript is s = some (rs, t)) :
    rs.length = is.length := by
  obtain ⟨qs, u, heq, hlength⟩ := transcript_exists is s
  rw [h] at heq
  cases heq
  exact hlength

/-- A command and then a list of commands give the command's response and then the list's. -/
theorem transcript_cons_eq_some {i : Instr} {is : List Instr} {s u t : State} {r : Response} {rs : List Response}
    (hexec : exec i s = .next u) (hchan : u.chan = .answered r)
    (htail : transcript is { u with chan := .idle } = some (rs, t)) : transcript (i :: is) s = some (r :: rs, t) := by
  simp only [transcript, answer, hexec, hchan, htail]

theorem answersWith_unique {o : Host.Outcome State Fault Refusal} {q r : Response} (hq : answersWith o q)
    (hr : answersWith o r) : q = r := by
  obtain ⟨t, rfl, hqt⟩ := hq
  obtain ⟨u, heq, hru⟩ := hr
  cases heq
  rw [hqt] at hru
  cases hru
  rfl

theorem isLoad_of_mem_procs {text : List Byte} {i : Instr} (h : i ∈ procs text) : isLoad i = false := by
  obtain ⟨ch, -, rfl⟩ := List.mem_map.1 h
  rfl

theorem isLoad_of_mem_encs {text : List Byte} {i : Instr} (h : i ∈ encs text) : isLoad i = false := by
  obtain ⟨ch, -, rfl⟩ := List.mem_map.1 h
  rfl

/-! ### Responses of a configured engine (R130) -/

theorem exec_configured {i : Instr} {s t : State} (hload : isLoad i = false) (h : exec i s = .next t) :
    t.configured = s.configured := by
  obtain ⟨-, hframe⟩ := commandFrame i s t h
  obtain ⟨-, -, -, hconf, -⟩ := hframe hload
  exact hconf

theorem encipher_status_ok {ch : Byte} {s : State} {r : Response} (hconf : s.configured = true)
    (h : answersWith (encipher ch s) r) : r.status = .ok := by
  obtain ⟨hun, -⟩ | ⟨-, -, heq⟩ | ⟨x, -, -, heq⟩ := encipher_cases ch s
  · rw [hun] at hconf; cases hconf
  · rw [answersWith_unique h ⟨_, heq, rfl⟩]
  · rw [answersWith_unique h ⟨_, heq, rfl⟩]

/-- A configured engine answers `OK` to every command but a `LOAD` (60_exceptions.md R143). -/
theorem exec_status_ok {i : Instr} {s : State} {r : Response} (hload : isLoad i = false) (hconf : s.configured = true)
    (h : answersWith (exec i s) r) : r.status = .ok := by
  cases i with
  | nop => rw [answersWith_unique h ⟨_, exec_nop s, rfl⟩]
  | load cfg => cases hload
  | enc ch => exact encipher_status_ok hconf h
  | proc ch => exact encipher_status_ok hconf h

theorem goodRun_of_transcript {is : List Instr} {s t : State} {rs : List Response} (hload : ∀ i ∈ is, isLoad i = false)
    (hconf : s.configured = true) (h : transcript is s = some (rs, t)) : goodRun rs := by
  intro r hr
  obtain ⟨k, hk, rfl⟩ := List.getElem_of_mem hr
  have hki : k < is.length := transcript_length h ▸ hk
  obtain ⟨u, hu, hanswer⟩ := transcript_getElem? (P := fun u => u.configured = true)
    (fun i hi u v hu hexec => (exec_configured (hload i hi) hexec).trans hu) hconf h
    (List.getElem?_eq_getElem hki) (List.getElem?_eq_getElem hk)
  exact exec_status_ok (hload _ (List.getElem_mem hki)) hu hanswer

theorem exists_goodRun {is : List Instr} {s : State} (hload : ∀ i ∈ is, isLoad i = false) (hconf : s.configured = true) :
    ∃ rs t, transcript is s = some (rs, t) ∧ rs.length = is.length ∧ goodRun rs := by
  obtain ⟨rs, t, h, hlength⟩ := transcript_exists is s
  exact ⟨rs, t, h, hlength, goodRun_of_transcript hload hconf h⟩

/-! ### Two engines that hold the same machine (R129) -/

/-- The two states agree in everything the datapath reads: the parameters and the registers (10_state.md R20). The channels, the
host's side and the counter of the free values may differ. -/
structure State.SameMachine (s t : State) : Prop where
  par : s.par = t.par
  sel : s.sel = t.sel
  ring : s.ring = t.ring
  pos : s.pos = t.pos
  plug : s.plug = t.plug
  configured : s.configured = t.configured

theorem State.SameMachine.subst {s t : State} (h : s.SameMachine t) (x : Letter) : s.subst x = t.subst x := by
  cases s
  cases t
  obtain ⟨rfl, rfl, rfl, rfl, rfl, rfl⟩ := h
  rfl

theorem State.SameMachine.stepRotors {s t : State} (h : s.SameMachine t) : s.stepRotors.SameMachine t.stepRotors where
  par := by simpa using h.par
  sel := by simpa using h.sel
  ring := by simpa using h.ring
  pos := State.stepRotors_pos_congr h.par h.sel h.pos
  plug := by simpa using h.plug
  configured := by simpa using h.configured

/-- The datapath reads neither channel. -/
theorem State.SameMachine.withChan {s t : State} (h : s.SameMachine t) (c d : Channel) :
    State.SameMachine { s with chan := c } { t with chan := d } :=
  ⟨h.par, h.sel, h.ring, h.pos, h.plug, h.configured⟩

/-- What one engine answers to a byte, the other answers with the byte, folded; afterwards they hold the same machine again
(R131, R134). -/
theorem exec_proc_answer {s s' u : State} {ch : Byte} {r : Response} (hsame : s.SameMachine s') (hinv : s.Inv)
    (hconf : s.configured = true) (hexec : exec (.proc ch) s = .next u) (hchan : u.chan = .answered r) :
    ∃ u', exec (.proc r.char) s' = .next u' ∧ u'.chan = .answered ⟨fold ch, .ok⟩ ∧ u.SameMachine u' := by
  have hconf' : s'.configured = true := hsame.configured ▸ hconf
  rw [exec_proc] at hexec
  cases hx : charToIdx (fold ch) with
  | none =>
    have hother : isLetter (fold ch) = false := (charToIdx_eq_none_iff _).1 hx
    rw [encipher_of_not_letter hconf hother] at hexec
    cases hexec
    cases hchan
    refine ⟨s'.respond .ok (fold ch), ?_, rfl, hsame.withChan _ _⟩
    rw [exec_proc, fold_fold, encipher_of_not_letter hconf' hother]
  | some x =>
    obtain ⟨-, -, hchar⟩ := charToIdx_eq_some hx
    have hback : s'.stepRotors.subst (s.stepRotors.subst x) = x := by
      rw [← hsame.stepRotors.subst, State.subst_subst hinv.stepRotors (by simpa using hconf)]
    rw [encipher_of_letter hconf hx] at hexec
    cases hexec
    cases hchan
    refine ⟨s'.keypress (s.stepRotors.subst x), ?_, ?_, hsame.stepRotors.withChan _ _⟩
    · rw [exec_proc, fold_idxToChar, encipher_of_letter hconf' (charToIdx_idxToChar _)]
    · rw [State.keypress_chan, hback, hchar]

/-- The other engine gives a processed text back, folded, and both end at the same machine (R133). -/
theorem transcript_procs_answers {text : List Byte} {s s' t : State} {rs : List Response} (hsame : s.SameMachine s')
    (hinv : s.Inv) (hconf : s.configured = true) (h : transcript (procs text) s = some (rs, t)) :
    ∃ rs' t', transcript (procs (rs.map Response.char)) s' = some (rs', t') ∧
      rs'.map Response.char = text.map fold ∧ t.SameMachine t' := by
  induction text generalizing s s' rs with
  | nil => cases h; exact ⟨[], s', rfl, rfl, hsame⟩
  | cons ch text ih =>
    obtain ⟨r, qs, u, rfl, hexec, hchan, htail⟩ := transcript_cons h
    obtain ⟨u', hexec', hchan', hsame'⟩ := exec_proc_answer hsame hinv hconf hexec hchan
    have hinvu : State.Inv { u with chan := .idle } := (exec_inv hinv hexec).of_kept rfl rfl rfl
    have hconfu : u.configured = true := (exec_configured rfl hexec).trans hconf
    obtain ⟨qs', t', htail', hqs', hend⟩ := ih (hsame'.withChan .idle .idle) hinvu hconfu htail
    exact ⟨_, t', transcript_cons_eq_some hexec' hchan' htail', by simp [hqs'], hend⟩

/-- One legal record loaded into two states constructs the same machine (R38, R124). -/
theorem State.sameMachine_commit {s s' : State} (h : s.par = s'.par) (cfg : Cfg) (sel : Vector Sel 3)
    (ps : List (Idx × Idx)) : (s.commit cfg sel ps).SameMachine (s'.commit cfg sel ps) :=
  ⟨h, rfl, rfl, rfl, rfl, rfl⟩

end Sys2Proof.Machine

namespace Sys2Proof
open Sys2Proof.Machine

/-- Settles O42: a transcript has a response for every command, and a configured engine answers `OK` to all but a `LOAD`. -/
theorem outputLengthEqualsInputLength : Obligations.OutputLengthEqualsInputLength := by
  intro s text hconf
  have hprocs := exists_goodRun (fun _ => isLoad_of_mem_procs (text := text)) hconf
  have hencs := exists_goodRun (fun _ => isLoad_of_mem_encs (text := text)) hconf
  rw [procs, List.length_map] at hprocs
  rw [encs, List.length_map] at hencs
  exact ⟨hprocs, hencs⟩

/-- Settles O43: every byte is processed in some configured state that meets the invariant, where `PROC` is `ENC` of the folded
byte. -/
theorem nonLettersKeepTheirPlace : Obligations.NonLettersKeepTheirPlace := by
  intro s t text rs hinv hconf h k ch r hch hr
  have hget : (procs text)[k]? = some (.proc ch) := by simp [procs, hch]
  obtain ⟨u, ⟨huinv, huconf⟩, hanswer⟩ := transcript_getElem? (P := fun u => u.Inv ∧ u.configured = true)
    (fun i hi u v ⟨huinv, huconf⟩ hexec => ⟨(exec_inv huinv hexec).of_kept rfl rfl rfl,
      (exec_configured (isLoad_of_mem_procs hi) hexec).trans huconf⟩) ⟨hinv, hconf⟩ h hget hr
  obtain ⟨hletters, hothers⟩ := noLetterEnciphersToItself u (fold ch) huinv huconf
  refine ⟨fun hother => ?_, fun hletter => ?_⟩
  · rw [answersWith_unique hanswer (hothers hother), fold_of_not_letter hother]
  · obtain ⟨c, hc, hcletter, hne⟩ := hletters hletter
    rw [answersWith_unique hanswer hc]
    exact ⟨hcletter, hne⟩

/-- Settles O44: the loads construct the same machine twice, and the second undoes the first byte by byte. -/
theorem roundTrip : Obligations.RoundTrip := by
  intro s s' cfg ps text hpar hwf hlegal
  obtain ⟨sel, -, hexec⟩ := exec_load_of_legal hlegal
  have hsame := (State.sameMachine_commit hpar cfg sel ps).withChan .idle .idle
  obtain ⟨-, -, -, hv⟩ := hlegal
  have hinv : State.Inv { s.commit cfg sel ps with chan := .idle } := ⟨hwf, fun _ => buildPlug_involutive hv⟩
  obtain ⟨rs, t, hrun, -, hgood⟩ := exists_goodRun (fun _ => isLoad_of_mem_procs (text := text))
    (s := { s.commit cfg sel ps with chan := .idle }) rfl
  obtain ⟨rs', t', hrun', hback, hend⟩ := transcript_procs_answers hsame hinv rfl hrun
  have hgood' : goodRun rs' := goodRun_of_transcript (fun _ => isLoad_of_mem_procs) rfl hrun'
  exact ⟨⟨0x00, .ok⟩, rs, t, ⟨0x00, .ok⟩, rs', t', transcript_cons_eq_some (hexec s) rfl hrun,
    transcript_cons_eq_some (hexec s') rfl hrun', hback, List.forall_mem_cons.2 ⟨rfl, hgood⟩,
    List.forall_mem_cons.2 ⟨rfl, hgood'⟩, hend.sel, hend.ring, hend.pos, hend.plug⟩

end Sys2Proof
end

