-- ==== Sys2Proof/Proofs/CommandInFlight.lean ====
section
/-! PROOFS. A step of the engine always goes on, and with a command in flight it runs that command
(45_datapath_commands.md R120, 60_exceptions.md R140). -/
namespace Sys2Proof.Machine

theorem runPacket_answers (p : Packet) (s : State) : ∃ t r, runPacket p s = .next t ∧ t.chan = .answered r := by
  obtain ⟨t, r, hrun, hchan, -⟩ := runPacket_char p s
  exact ⟨t, r, hrun, hchan⟩

/-- With a packet in flight and no reset, the step is the packet's, a pause of the host passed over (log 7). -/
theorem step_of_inFlight {s : State} {p : Packet} (hchan : s.chan = .inFlight p) (hrst : s.host.head? ≠ some .rst) :
    ∃ l, (l = s.host ∧ s.host.head? ≠ some .pause ∨ s.host = .pause :: l) ∧ step s = runPacket p { s with host := l } := by
  obtain ⟨rest, hhost, -⟩ | ⟨q, l, hq, -, hl, heq⟩ | ⟨q, rest, hidle, -⟩ | ⟨r, rest, hanswered, -⟩ | ⟨l, hnone, -⟩ :=
    step_cases s
  · simp [hhost] at hrst
  · rw [hchan] at hq
    cases hq
    exact ⟨l, hl, heq⟩
  · rw [hchan] at hidle; cases hidle
  · rw [hchan] at hanswered; cases hanswered
  · exact absurd hchan (hnone p)

end Sys2Proof.Machine

namespace Sys2Proof
open Sys2Proof.Machine

/-- Settles O1: the step is the packet's, and every packet is answered. -/
theorem stepRunsAcceptedCommand : Obligations.StepRunsAcceptedCommand := by
  intro s p hchan hrst
  obtain ⟨l, hl, hstep⟩ := step_of_inFlight hchan hrst
  obtain ⟨t, r, hrun, hanswer⟩ := runPacket_answers p { s with host := l }
  refine ⟨{ s with host := l }, ?_, fun i hdec => ?_, fun e hdec => ?_, t, r, hstep.trans hrun, hanswer⟩
  · obtain ⟨rfl, hpause⟩ | hpause := hl
    · exact .inl ⟨rfl, hpause⟩
    · exact .inr ⟨l, hpause, rfl⟩
  · exact hstep.trans (runPacket_of_decode_ok hdec _)
  · exact hstep.trans (runPacket_of_decode_error hdec _)

/-- Settles O4: every kind of step is a next state, a packet's because every packet is answered. -/
theorem everyStepAnswersNextState : Obligations.EveryStepAnswersNextState := by
  intro s
  obtain ⟨rest, -, heq⟩ | ⟨p, l, -, -, -, heq⟩ | ⟨p, rest, -, -, heq⟩ | ⟨r, rest, -, -, heq⟩ | ⟨l, -, -, -, heq⟩ :=
    step_cases s
  · exact ⟨_, heq⟩
  · obtain ⟨t, -, hrun, -⟩ := runPacket_answers p { s with host := l }
    exact ⟨t, heq.trans hrun⟩
  · exact ⟨_, heq⟩
  · exact ⟨_, heq⟩
  · exact ⟨_, heq⟩

end Sys2Proof
end

