-- ==== Sys2Proof/Proofs/CommandStatus.lean ====
section
/-! PROOFS. The status each command ends with (60_exceptions.md R141, R143, R144). -/
namespace Sys2Proof.Machine

theorem load_status {cfg : Cfg} {s : State} {r : Response} (h : answersWith (exec (.load cfg) s) r) :
    r.status ∈ [Status.ok, .selRange, .plugCount, .plugNonletter, .plugSelf, .plugReuse] := by
  obtain ⟨sel, ps, hval, -⟩ | ⟨e, hval, he⟩ := validate_cases cfg
  · have hr : r = ⟨0x00, .ok⟩ := answersWith_unique h ⟨_, execLoad_of_validate_ok hval s, rfl⟩
    simp [hr]
  · have hr : r = ⟨0x00, e⟩ := answersWith_unique h (answersWith_load_of_error hval s)
    simpa [hr] using Or.inr he

/-- The status of `ENC` and `PROC` is decided by `CONFIGURED` alone, whatever the byte. -/
theorem encipher_status {ch : Byte} {s : State} {r : Response} (h : answersWith (encipher ch s) r) :
    (s.configured = true → r.status = .ok) ∧ (s.configured = false → r.status = .notConfigured) := by
  refine ⟨fun hconf => encipher_status_ok hconf h, fun hconf => ?_⟩
  rw [answersWith_unique h ⟨_, encipher_of_unconfigured hconf ch, rfl⟩]

theorem exec_answersWith_ok {i : Instr} {s : State} (hload : isLoad i = false) (hconf : s.configured = true) :
    ∃ c, answersWith (exec i s) ⟨c, .ok⟩ := by
  obtain ⟨t, ⟨c, st⟩, hexec, hchan⟩ := exec_answers i s
  obtain rfl : st = .ok := exec_status_ok hload hconf ⟨t, hexec, hchan⟩
  exact ⟨c, t, hexec, hchan⟩

end Sys2Proof.Machine

namespace Sys2Proof
open Sys2Proof.Machine

/-- Settles O13: every command is answered, and each kind of command has its own lemma about the answer's status. -/
theorem statusesOfEachCommand : Obligations.StatusesOfEachCommand := by
  intro i s
  obtain ⟨t, r, hexec, hchan⟩ := exec_answers i s
  have hanswer : answersWith (exec i s) r := ⟨t, hexec, hchan⟩
  refine ⟨t, r, hexec, hchan, ?_, ?_, ?_⟩
  · rintro rfl
    rw [answersWith_unique hanswer ⟨_, exec_nop s, rfl⟩]
  · rintro ⟨cfg, rfl⟩
    exact load_status hanswer
  · rintro ⟨ch, rfl | rfl⟩
    · exact encipher_status hanswer
    · exact encipher_status hanswer

/-- Settles O38: `ENC` and `PROC` are not `LOAD`, and a configured engine answers `OK` to every other command. -/
theorem configuredEngineNeverErrs : Obligations.ConfiguredEngineNeverErrs := fun _ _ hconf =>
  ⟨exec_answersWith_ok rfl hconf, exec_answersWith_ok rfl hconf⟩

end Sys2Proof
end

