-- ==== Sys2Proof/Proofs/ResetEvent.lean ====
section
/-! PROOFS. The event `rst` (70_reset_and_hazards.md R160). -/
namespace Sys2Proof.Machine

theorem step_of_rst {s : State} {rest : List HostAction} (h : s.host = .rst :: rest) :
    step s = .next { s.rstEvent with host := rest } := by
  simp only [step, hostStep, h]

end Sys2Proof.Machine

namespace Sys2Proof
open Sys2Proof.Machine

/-- Settles O53: the host's action alone makes the step a reset, whatever stands on the channels. -/
theorem resetEventEmptiesEngine : Obligations.ResetEventEmptiesEngine := fun s rest h =>
  ⟨{ s.rstEvent with host := rest }, step_of_rst h, rfl, rfl, rfl, rfl, rfl⟩

end Sys2Proof
end

