-- ==== Sys2Proof/Proofs/CommandHazards.lean ====
section
/-! PROOFS. How commands act on each other (70_reset_and_hazards.md R162 to R164): commands that press no key leave the machine
as it was, so they may stand anywhere between keypresses, and executed twice they do what they do once. -/
namespace Sys2Proof.Machine

/-! ### Commands that press no key -/

theorem State.SameMachine.trans {s t u : State} (hst : s.SameMachine t) (htu : t.SameMachine u) : s.SameMachine u :=
  ⟨hst.par.trans htu.par, hst.sel.trans htu.sel, hst.ring.trans htu.ring, hst.pos.trans htu.pos, hst.plug.trans htu.plug,
    hst.configured.trans htu.configured⟩

/-- A command that is neither a `LOAD` nor a keypress leaves the machine as it was (R162, R163). -/
theorem sameMachine_of_no_keypress {i : Instr} {s t : State} (hload : isLoad i = false)
    (hkey : keyLetter i = none ∨ s.configured = false) (h : exec i s = .next t) :
    State.SameMachine { t with chan := .idle } s := by
  obtain ⟨⟨hpar, -⟩, hframe⟩ := commandFrame i s t h
  obtain ⟨hsel, hring, hplug, hconf, -, hpos⟩ := hframe hload
  exact ⟨hpar, hsel, hring, hpos hkey, hplug, hconf⟩

/-- Two engines that hold the same machine answer one keypress alike and hold the same machine after it. -/
theorem State.SameMachine.keypress {s t : State} (h : s.SameMachine t) (x : Letter) :
    (s.keypress x).chan = (t.keypress x).chan ∧
      State.SameMachine { s.keypress x with chan := .idle } { t.keypress x with chan := .idle } := by
  refine ⟨?_, h.stepRotors.withChan .idle .idle⟩
  rw [State.keypress_chan, State.keypress_chan, h.stepRotors.subst]

/-- An engine that holds the same machine answers the keypresses of a list alike when they come without the other commands. -/
theorem transcript_keypresses_alone {is : List Instr} {s s' t : State} {rs : List Response} (hsame : s.SameMachine s')
    (hconf : s.configured = true) (hload : ∀ i ∈ is, isLoad i = false) (h : transcript is s = some (rs, t)) :
    ∃ u, transcript (is.filter fun i => (keyLetter i).isSome) s' =
        some (((is.zip rs).filter fun q => (keyLetter q.1).isSome).map Prod.snd, u) ∧ t.SameMachine u := by
  induction is generalizing s s' rs with
  | nil => cases h; exact ⟨s', rfl, hsame⟩
  | cons i is ih =>
    obtain ⟨r, qs, v, rfl, hexec, hchan, htail⟩ := transcript_cons h
    obtain ⟨hi, his⟩ := List.forall_mem_cons.1 hload
    have hconfv : v.configured = true := (exec_configured hi hexec).trans hconf
    cases hx : keyLetter i with
    | none =>
      have hv := sameMachine_of_no_keypress hi (.inl hx) hexec
      simpa [hx] using ih (hv.trans hsame) hconfv his htail
    | some x =>
      rw [exec_of_keyLetter hconf hx] at hexec
      cases hexec
      obtain ⟨hanswer, hv⟩ := hsame.keypress x
      obtain ⟨u, hrun, hend⟩ := ih hv hconfv his htail
      have hexec' := exec_of_keyLetter (hsame.configured ▸ hconf) hx
      exact ⟨u, by simpa [hx] using transcript_cons_eq_some hexec' (hanswer ▸ hchan) hrun, hend⟩

/-! ### An unconfigured engine -/

/-- Without a `LOAD` an unconfigured engine keeps the machine it holds, since no command presses a key in it. -/
theorem transcript_sameMachine_of_unconfigured {is : List Instr} {s t : State} {rs : List Response}
    (hconf : s.configured = false) (hload : ∀ i ∈ is, isLoad i = false) (h : transcript is s = some (rs, t)) :
    t.SameMachine s := by
  induction is generalizing s rs with
  | nil => cases h; exact ⟨rfl, rfl, rfl, rfl, rfl, rfl⟩
  | cons i is ih =>
    obtain ⟨r, qs, u, -, hexec, -, htail⟩ := transcript_cons h
    obtain ⟨hi, his⟩ := List.forall_mem_cons.1 hload
    have hu := sameMachine_of_no_keypress hi (.inr hconf) hexec
    exact (ih (hu.configured.trans hconf) his htail).trans hu

/-- What an unconfigured engine answers to a command that is no `LOAD` (60_exceptions.md R146). -/
theorem answersWith_of_unconfigured {i : Instr} {s : State} (hload : isLoad i = false) (hconf : s.configured = false) :
    answersWith (exec i s) (if i = .nop then ⟨0x00, .ok⟩ else ⟨0x00, .notConfigured⟩) := by
  cases i with
  | nop => exact ⟨_, exec_nop s, rfl⟩
  | load cfg => cases hload
  | enc ch => exact ⟨_, encipher_of_unconfigured hconf ch, rfl⟩
  | proc ch => exact ⟨_, encipher_of_unconfigured hconf (fold ch), rfl⟩

/-! ### Commands executed twice (R164) -/

/-- A command that only answers gives the same answer again: it does not read the channel it wrote. -/
theorem exec_again_of_respond {i : Instr} {s : State} {st : Status} {ch : Byte}
    (h : exec i s = .next (s.respond st ch)) : exec i (s.respond st ch) = .next (s.respond st ch) :=
  exec_withHostSide h (.answered ⟨ch, st⟩) s.host s.received

theorem exec_again_of_no_keypress {i : Instr} {s t : State} (hload : isLoad i = false) (hkey : keyLetter i = none)
    (h : exec i s = .next t) : exec i t = .next t := by
  obtain ⟨st, ch, rfl⟩ | ⟨x, hx, -⟩ | ⟨cfg, sel, ps, rfl, -⟩ | ⟨cfg, e, rfl, -⟩ := exec_outcomes h
  · exact exec_again_of_respond h
  · rw [hkey] at hx; cases hx
  · cases hload
  · cases hload

/-- A legal record is committed to the same registers whatever they held. -/
theorem exec_again_of_legal_load {cfg : Cfg} {ps : List (Idx × Idx)} {s t : State} (hlegal : legalRecord cfg ps)
    (h : exec (.load cfg) s = .next t) : exec (.load cfg) t = .next t := by
  obtain ⟨sel, -, hexec⟩ := exec_load_of_legal hlegal
  rw [hexec s] at h
  cases h
  exact hexec _

end Sys2Proof.Machine

namespace Sys2Proof
open Sys2Proof.Machine

/-- Settles O45: every other command leaves the machine as it was, so the keypresses find the same machine without it. -/
theorem nonKeypressesInterleaveHarmlessly : Obligations.NonKeypressesInterleaveHarmlessly := by
  intro is s t rs hconf hload h
  obtain ⟨u, hrun, hend⟩ := transcript_keypresses_alone ⟨rfl, rfl, rfl, rfl, rfl, rfl⟩ hconf hload h
  exact ⟨_, u, hrun, rfl, hend.sel.symm, hend.ring.symm, hend.pos.symm, hend.plug.symm, hend.configured.symm⟩

/-- Settles O46: the machine stays as it is, so each command is answered in an unconfigured state. -/
theorem unconfiguredUntilLoad : Obligations.UnconfiguredUntilLoad := by
  intro is s t rs hconf hload h
  have hend := transcript_sameMachine_of_unconfigured hconf hload h
  refine ⟨⟨hend.configured.trans hconf, hend.sel, hend.ring, hend.pos, hend.plug⟩, fun k i r hi hr => ?_⟩
  obtain ⟨u, hu, hanswer⟩ := transcript_getElem? (P := fun u => u.configured = false)
    (fun j hj u v hu hexec => (exec_configured (hload j hj) hexec).trans hu) hconf h hi hr
  exact answersWith_unique hanswer (answersWith_of_unconfigured (hload i (List.mem_of_getElem? hi)) hu)

/-- Settles O47: `NOP` and a non-letter write the response alone, and what a legal `LOAD` writes does not depend on the state. -/
theorem idempotentCommands : Obligations.IdempotentCommands := by
  intro i s t hcases h
  obtain rfl | ⟨hload, hkey⟩ | ⟨cfg, ps, rfl, hlegal⟩ := hcases
  · exact exec_again_of_no_keypress rfl rfl h
  · exact exec_again_of_no_keypress hload hkey h
  · exact exec_again_of_legal_load hlegal h

end Sys2Proof
end
